-- ==== Sys2Proof/Word.lean ====
section
/-! DEFINITION. The widths of the block's values (spec/00_scope.md R5, R7; spec/30_encoding.md R60). -/

namespace Sys2Proof

/-- "a nibble is 4 bits" (R7): the unit on the four-line data bus (R43). -/
abbrev Nibble := BitVec 4

/-- `value`, `cmd`, `c`, `row`, `col` and every command byte are 8 bits, unsigned (R7, R63). -/
abbrev Byte := BitVec 8

/-- An operation is presented to the block as one 24-bit command word (R60). -/
abbrev CommandWord := BitVec 24

end Sys2Proof
end

