-- ==== Sys2Proof/Syntax.lean ====
section
/-! DEFINITION. What the block is told and what it does at its pins, as syntax: the nine operations of the opcode table
(spec/30_encoding.md R62), the call syntax of the source (R74, R75) and the nine Pin Driver events
(spec/40_pin_driver_primitives.md R80). -/

namespace Sys2Proof

/-- The mode operand of SEND_NIBBLE and SEND_BYTE (R6): COMMAND, written 0, or DATA, written 1. -/
inductive Mode where
  | command
  | data
  deriving DecidableEq, Repr

/-- The three control lines (R5, R80): enable, register-select, read/write. -/
inductive Line where
  | e
  | rs
  | rw
  deriving DecidableEq, Repr

/-- The two directions of the four data pins (R6, R15). -/
inductive Dir where
  | input
  | output
  deriving DecidableEq, Repr

/-- One Pin Driver primitive as `TRACE` records it (R80). The list is closed (R81). -/
inductive PinEvent where
  /-- `configure_data_pins_as_output()` (R82). -/
  | cfgDataOut
  /-- Output-configuration of a control line (R83). -/
  | cfgCtlOut (l : Line)
  /-- `set_data_bus(v)` (R85). -/
  | setBus (v : Nibble)
  /-- `read_data_bus()` with the value the device answered (R84). -/
  | readBus (v : Nibble)
  /-- `set_data_bus_direction(d)` (R86). -/
  | setDir (d : Dir)
  /-- Assert of a control line (R87). -/
  | assert (l : Line)
  /-- Deassert of a control line (R88). -/
  | deassert (l : Line)
  /-- `delay_microseconds(n)` (R89). -/
  | delayUs (n : Nat)
  /-- `delay_milliseconds(n)` (R90). -/
  | delayMs (n : Nat)
  deriving DecidableEq, Repr

/-- The operations of the block, one constructor per row of spec/opcode_table.json (R62). The operand types are the
widths of R61 and R63, so a nibble over 15 or a mode other than COMMAND and DATA cannot be written (D24). -/
inductive Instr where
  /-- `send_nibble(value, mode)` (R100). -/
  | sendNibble (value : Nibble) (mode : Mode)
  /-- `send_byte(value, mode)` (R102). -/
  | sendByte (value : Byte) (mode : Mode)
  /-- `read_busy()` (R104). -/
  | readBusy
  /-- `init()` (R140). -/
  | init
  /-- `wait_ready()` (R120). -/
  | waitReady
  /-- `write_command(cmd)` (R124). -/
  | writeCommand (cmd : Byte)
  /-- `write_char(c)` (R127). -/
  | writeChar (c : Byte)
  /-- `set_cursor(row, col)` (R134). -/
  | setCursor (row : Byte) (col : Byte)
  /-- `clear()` (R138). -/
  | clear
  deriving DecidableEq, Repr

/-- A call as the source writes it (R74), with its operands as the natural numbers the text holds, not yet checked
against the operand widths; `writeString` is the one pseudo-operation (R75). -/
inductive Call where
  | sendNibble (value : Nat) (mode : Mode)
  | sendByte (value : Nat) (mode : Mode)
  | readBusy
  | init
  | waitReady
  | writeCommand (cmd : Nat)
  | writeChar (c : Nat)
  | setCursor (row : Nat) (col : Nat)
  | clear
  | writeString (s : List Nat)
  deriving DecidableEq, Repr

end Sys2Proof
end

