-- ==== Sys2Proof/Config.lean ====
section
/-! DEFINITION. The configuration of the block and the device's answers (spec/00_scope.md R4;
spec/40_pin_driver_primitives.md R84; spec/10_state.md R24): parameters of the machine, not state. `Config.cfg` and
`Config.oracle` are the ones `exec` uses; nothing in Lean can evaluate them, so a claim about `exec` holds whatever they
are. Every operation also takes a `Cfg` and an `Oracle` as arguments, so that claims quantify over all of them. -/

namespace Sys2Proof

/-- How INIT transmits "the command `0x02`" (R4 `BOOT02_FORM`; 90_conflicts.md C3 keeps both readings). -/
inductive Boot02Form where
  | nibble
  | byte
  deriving DecidableEq, Repr, Inhabited

/-- The record `Cfg` of R4. Delays and counts are naturals, command bytes 8 bits, the device minimums rationals in
microseconds. -/
structure Cfg where
  /-- `D_SETUP_US` -/
  dSetupUs : Nat
  /-- `D_PULSE_US` -/
  dPulseUs : Nat
  /-- `D_SETTLE_US` -/
  dSettleUs : Nat
  /-- `D_BOOT_US`, the one constant the source fixes: 40 -/
  dBootUs : Nat
  /-- `D_POWERUP_MS` -/
  dPowerupMs : Nat
  /-- `D_CLEAR_EXTRA_MS` -/
  dClearExtraMs : Nat
  /-- `N_POLL_MAX` -/
  nPollMax : Nat
  /-- `D_POLL_US` -/
  dPollUs : Nat
  /-- `POLL_DELAY_AFTER_LAST` -/
  pollDelayAfterLast : Bool
  /-- `BOOT02_FORM` -/
  boot02Form : Boot02Form
  /-- `CMD_FUNCTION_SET_2LINE` -/
  cmdFunctionSet2Line : Byte
  /-- `CMD_DISPLAY_ON` -/
  cmdDisplayOn : Byte
  /-- `CMD_CLEAR` -/
  cmdClear : Byte
  /-- `CMD_ENTRY_MODE_LTR` -/
  cmdEntryModeLtr : Byte
  /-- `CMD_SET_DDRAM`, bits [6:0] zero -/
  cmdSetDdram : Byte
  /-- `T_SETUP_MIN` -/
  tSetupMin : Rat
  /-- `T_PW_MIN` -/
  tPwMin : Rat
  /-- `T_SETTLE_MIN` -/
  tSettleMin : Rat
  deriving DecidableEq, Repr, Inhabited

/-- The configuration is timing-valid: V1, V2 and V3 of 70_reset_and_hazards.md R186. -/
abbrev Cfg.TimingValid (c : Cfg) : Prop :=
  c.tSetupMin ≤ c.dSetupUs ∧ c.tPwMin ≤ c.dPulseUs ∧ c.tSettleMin ≤ c.dSettleUs

/-- "The constraints in the last column hold for every admissible `Cfg`" (R4). -/
abbrev Cfg.Admissible (c : Cfg) : Prop :=
  c.TimingValid ∧ c.dBootUs = 40 ∧ 1 ≤ c.nPollMax ∧ c.cmdSetDdram &&& 0x7F#8 = 0#8

/-- Any record turned into an admissible one; an admissible one is left as it is, so every admissible configuration is
in the range of this function. -/
def Cfg.toAdmissible (c : Cfg) : Cfg :=
  { c with
    dSetupUs := max c.dSetupUs c.tSetupMin.ceil.toNat
    dPulseUs := max c.dPulseUs c.tPwMin.ceil.toNat
    dSettleUs := max c.dSettleUs c.tSettleMin.ceil.toNat
    dBootUs := 40
    nPollMax := max c.nPollMax 1
    cmdSetDdram := c.cmdSetDdram &&& 0x80#8 }

/-- The configuration `CFG_REF` of 92_eei_decisions.md D21: for the spec's test vectors and for witnesses only. Its
command bytes and `T_*` values are general knowledge and not the source's (R67, G1, G6); no claim rests on them. -/
def Cfg.ref : Cfg where
  dSetupUs := 1
  dPulseUs := 1
  dSettleUs := 1
  dBootUs := 40
  dPowerupMs := 50
  dClearExtraMs := 2
  nPollMax := 3
  dPollUs := 10
  pollDelayAfterLast := false
  boot02Form := .byte
  cmdFunctionSet2Line := 0x28#8
  cmdDisplayOn := 0x0C#8
  cmdClear := 0x01#8
  cmdEntryModeLtr := 0x06#8
  cmdSetDdram := 0x80#8
  tSetupMin := mkRat 6 100
  tPwMin := mkRat 45 100
  tSettleMin := mkRat 55 100

/-- The device as the answerer of bus reads: "a function from the `TRACE` so far to a nibble" (R84). TRACE grows with
every event, so no two reads of a run ask at the same point and each answer is a draw of its own. -/
abbrev Oracle := List PinEvent → Nibble

/-- The free choice behind `Config.cfg`: nothing constrains it (DESIGN CHOICE, log entry 2;
safe). -/
opaque Config.choice : Cfg

/-- The configuration of the block: any admissible one (R4; log entry 2). -/
def Config.cfg : Cfg := Config.choice.toAdmissible

/-- What the device answers: a free value at every read (R84, D20; DESIGN CHOICE of the form, log entry 3; safe). -/
opaque Config.oracle : Oracle

end Sys2Proof
end

