-- ==== Sys2Proof/Machine/State.lean ====
section
/-! DEFINITION. The state of the block: the tuple of spec/10_state.md R10 as plain data, with two fields of the model's
own for the command port (R60, R168) and the result values (R70, R168); the reset state (R30, R170); the reasons a step
can stop. The block has no addressable memory (spec/20_memory.md R40), so there is no memory field. -/

namespace Sys2Proof.Machine

/-- The logical level of a control line (R6, R10): DEASSERTED, written 0, or ASSERTED, written 1. -/
inductive Level where
  | deasserted
  | asserted
  deriving DecidableEq, Repr

/-- The states of the Protocol Controller (R19). -/
inductive ProtocolState where
  | uninit
  | initializing
  | ready
  deriving DecidableEq, Repr

/-- The pin-side latches and the pin configuration: the first nine fields of R10. `none` is the spec's own value `⊥`,
"nothing has written it since reset" (R6, R10, R30;
log entry 1). -/
structure Pins where
  /-- `DB_OUT` (R11) -/
  dbOut : Option Nibble
  /-- `E` (R12) -/
  e : Option Level
  /-- `RS` (R13) -/
  rs : Option Level
  /-- `RW` (R14) -/
  rw : Option Level
  /-- `DIR` (R15) -/
  dir : Option Dir
  /-- `CFG_DATA` (R20) -/
  cfgData : Bool
  /-- `CFG_E` (R20) -/
  cfgE : Bool
  /-- `CFG_RS` (R20) -/
  cfgRs : Bool
  /-- `CFG_RW` (R20) -/
  cfgRw : Bool
  deriving DecidableEq, Repr

/-- The result of WAIT_READY: READY (0) or EXHAUSTED (1) (R70). -/
inductive WaitResult where
  | ready
  | exhausted
  deriving DecidableEq, Repr

/-- The result of SET_CURSOR: ISSUED (0) or DROPPED (1) (R70). -/
inductive CursorResult where
  | issued
  | dropped
  deriving DecidableEq, Repr

/-- "Operations return at most one small value, outside the command word" (R70); `done` is a return without a value
(DESIGN CHOICE, log entry 5). -/
inductive Result where
  | done
  | busyFlag (bf : Bool)
  | wait (r : WaitResult)
  | cursor (r : CursorResult)
  deriving DecidableEq, Repr

/-- The complete state of the block (R10), and after `trace` the model's own two fields. -/
structure State where
  /-- `DB_OUT`, `E`, `RS`, `RW`, `DIR`, `CFG_*` -/
  pins : Pins
  /-- `PSTATE` (R19) -/
  pstate : ProtocolState
  /-- `BF` (R17): `some true` busy, `some false` ready, `none` for `⊥` -/
  bf : Option Bool
  /-- `ATTEMPT` (R18) -/
  attempt : Nat
  /-- `UPC` (R21) -/
  upc : Nat
  /-- `TRACE` (R23), oldest event first -/
  trace : List PinEvent
  /-- The command words the application has yet to feed to the command port, next one first (R60, R168). DESIGN CHOICE:
  the list, and that it is empty at reset (log entry 4). -/
  commands : List CommandWord
  /-- The result values returned since reset, oldest first, one for each accepted word (R70, R168). DESIGN CHOICE: the
  list, and that it is empty at reset (log entry 5). -/
  results : List Result
  deriving DecidableEq, Repr

/-- The latches at reset: all `⊥`, nothing configured (R30). -/
def Pins.reset : Pins where
  dbOut := none
  e := none
  rs := none
  rw := none
  dir := none
  cfgData := false
  cfgE := false
  cfgRs := false
  cfgRw := false

/-- The state right after reset (R30, R170), with no command word waiting and no result returned. -/
def State.reset : State where
  pins := Pins.reset
  pstate := .uninit
  bf := none
  attempt := 0
  upc := 0
  trace := []
  commands := []
  results := []

/-- "The block has no fault (nothing traps)" (spec/60_exceptions.md R161; R150): the type has no constructor, so no step
can end in one. -/
inductive Fault where
  deriving DecidableEq, Repr

/-- `refuse(reason)`, "an outcome of the model, not of the hardware: the operation has no successor state and emits no
event" (R158). Every one is safe: the model stops where real software would do something the spec does not state. -/
inductive Refusal where
  /-- Raised by an arm of `exec` that has no meaning yet; safe. No arm uses it: all nine have their meaning. -/
  | notModelled (mnemonic : String)
  /-- Raised by `step` on a word that matches no row of the opcode map, in every state (R71, R158); safe. -/
  | illegalWord
  /-- Raised by every operation but INIT while PSTATE = UNINIT (R159); safe. -/
  | notInitialised
  /-- Raised by INIT while PSTATE = READY (R159); safe. -/
  | alreadyInitialised
  /-- Raised by every operation on a word that arrives while another operation is running: UPC not 0, or PSTATE =
  INITIALIZING (R60, R160; DESIGN CHOICE, log entry 7); safe. No run
  from reset reaches it, since a step runs a whole operation. -/
  | operationRunning
  deriving DecidableEq, Repr

/-- An outcome of this machine. -/
abbrev Outcome := Host.Outcome State Fault Refusal

end Sys2Proof.Machine
end

