-- ==== Sys2Proof/Machine/Flags.lean ====
section
/-! DEFINITION. The one condition flag BF (spec/10_state.md R17, R28; spec/30_encoding.md R65), and the two error kinds
the block absorbs (spec/60_exceptions.md R151). -/

namespace Sys2Proof.Machine

/-- `BF = n1[3]`, "the first pulse's returned nibble's top bit" (R17, R65, R104): `true` is 1, busy. -/
def busyFlagOf (n1 : Nibble) : Bool := n1.getLsbD 3

/-- The two error kinds of R151. Neither is reported to a caller. -/
inductive ErrorKind where
  /-- `ERR_RANGE`: cursor coordinates outside addressable DDRAM. -/
  | range
  /-- `ERR_TIMEOUT`: the busy flag fails to clear within the bounded retry window. -/
  | timeout
  deriving DecidableEq, Repr

/-- The codes of R151. -/
def errorCode : ErrorKind → Nat
  | .range => 1
  | .timeout => 2

/-- The error kind a result value stands for: DROPPED for `ERR_RANGE`, EXHAUSTED for `ERR_TIMEOUT` (R151). -/
def errorOf : Result → Option ErrorKind
  | .done => none
  | .busyFlag _ => none
  | .wait .ready => none
  | .wait .exhausted => some .timeout
  | .cursor .issued => none
  | .cursor .dropped => some .range

/-- What a timed-out wait leaves recorded in the state: `BF = 1`, `ATTEMPT = N_POLL_MAX` (R151). -/
def timeoutRecorded (c : Cfg) (s : State) : Bool := s.bf == some true && s.attempt == c.nPollMax

end Sys2Proof.Machine
end

