-- ==== Sys2Proof/Machine/Operands.lean ====
section
/-! DEFINITION. Operand assembly: the nibble split (spec/30_encoding.md R65), mode to register-select level (R13, R63),
the cursor guard and address (spec/42_protocol_controller.md R134, R136; R42, R68), and the numbers the spec gives to
its names (R6, R19). -/

namespace Sys2Proof.Machine

/-- `hi(b) = (b >> 4) & 0xF` (R65). -/
def hi (b : Byte) : Nibble := ((b >>> 4) &&& 0xF#8).setWidth 4

/-- `lo(b) = b & 0xF` (R65). -/
def lo (b : Byte) : Nibble := (b &&& 0xF#8).setWidth 4

/-- `{n1, n2}`: a byte from its high and low nibble (R65), used for the status byte of a read (R28). -/
def joinNibbles (n1 n2 : Nibble) : Byte := n1 ++ n2

/-- `COMMAND = RS deasserted`, `DATA = RS asserted` (R13, D3). -/
def levelOf : Mode → Level
  | .command => .deasserted
  | .data => .asserted

/-- The event that sets a control line to a level. -/
def drive (l : Line) : Level → PinEvent
  | .deasserted => .deassert l
  | .asserted => .assert l

/-- The guard of SET_CURSOR, `row < 2 and col < 0x27`, unsigned on 8-bit operands (R134, R136). -/
def cursorInRange (row col : Byte) : Bool := row.ult 2#8 && col.ult 0x27#8

/-- `addr = row * 0x40 + col` (R42, R134). Under the guard it fits in 7 bits and nothing wraps (R136). -/
def cursorAddr (row col : Byte) : Byte := row * 0x40#8 + col

/-- The positioning command byte `CMD_SET_DDRAM | addr` (R68, R134). -/
def positioningByte (c : Cfg) (row col : Byte) : Byte := c.cmdSetDdram ||| cursorAddr row col

/-- A level as R6 writes it: `DEASSERTED` 0, `ASSERTED` 1. -/
def levelBit : Level → BitVec 1
  | .deasserted => 0#1
  | .asserted => 1#1

/-- `UNINIT = 0`, `INITIALIZING = 1`, `READY = 2` (R19). -/
def protocolStateCode : ProtocolState → Nat
  | .uninit => 0
  | .initializing => 1
  | .ready => 2

/-- The operations the source exposes to applications (R76); the others are internal. The command port accepts both. -/
def isPublic : Instr → Bool
  | .sendNibble _ _ => false
  | .sendByte _ _ => false
  | .readBusy => false
  | .init => true
  | .waitReady => false
  | .writeCommand _ => false
  | .writeChar _ => true
  | .setCursor _ _ => true
  | .clear => true

/-- A result value as R70 numbers it: `BF` 1 = busy, READY 0, EXHAUSTED 1, ISSUED 0, DROPPED 1; none for no value. -/
def resultValue : Result → Option Nat
  | .done => none
  | .busyFlag bf => some bf.toNat
  | .wait .ready => some 0
  | .wait .exhausted => some 1
  | .cursor .issued => some 0
  | .cursor .dropped => some 1

end Sys2Proof.Machine
end

