-- ==== Sys2Proof/Machine/Ops.lean ====
section
/-! DEFINITION. The shared operations: what one Pin Driver event does (spec/40_pin_driver_primitives.md R80 to R90),
micro-steps and calls (spec/10_state.md R21, R22), and the command port (spec/30_encoding.md R60;
spec/60_exceptions.md R158 to R160). The block takes no exception and returns from none (R150, R154, R155), so no such
operation stands here; and it has no memory (R40). -/

namespace Sys2Proof.Machine

/-- `l <- level` (R87, R88). -/
def Pins.setLine (p : Pins) (l : Line) (v : Level) : Pins :=
  match l with
  | .e => { p with e := some v }
  | .rs => { p with rs := some v }
  | .rw => { p with rw := some v }

/-- `CFG_l <- true` (R83). -/
def Pins.configure (p : Pins) (l : Line) : Pins :=
  match l with
  | .e => { p with cfgE := true }
  | .rs => { p with cfgRs := true }
  | .rw => { p with cfgRw := true }

/-- The effect of one event on the latches (R82 to R90). -/
def Pins.apply (p : Pins) (ev : PinEvent) : Pins :=
  match ev with
  | .cfgDataOut => { p with cfgData := true, dir := some .output }
  | .cfgCtlOut l => p.configure l
  | .setBus v => { p with dbOut := some v }
  | .readBus _ => p
  | .setDir d => { p with dir := some d }
  | .assert l => p.setLine l .asserted
  | .deassert l => p.setLine l .deasserted
  | .delayUs _ => p
  | .delayMs _ => p

/-- The latches after a list of events, oldest first. -/
def Pins.replay (p : Pins) (evs : List PinEvent) : Pins := evs.foldl Pins.apply p

/-- `emit ev`: "It does two things and nothing else: it applies the effect that the rule for `ev` gives to the latches,
and it appends `ev` to the end of `TRACE`" (R80). -/
def State.emit (s : State) (ev : PinEvent) : State :=
  { s with pins := s.pins.apply ev, trace := s.trace ++ [ev] }

/-- The end of a micro-step: `UPC` advances by 1 (R21). -/
def State.tick (s : State) : State := { s with upc := s.upc + 1 }

/-- `UPC <- n` (R7, R21). -/
def State.goto (s : State) (n : Nat) : State := { s with upc := n }

/-- A run of micro-steps, each one event. -/
def State.emits (s : State) (evs : List PinEvent) : State := evs.foldl (fun t ev => (t.emit ev).tick) s

/-- The micro-step `v <- emit ReadBus`: the device oracle answers, the event is recorded with the answer (R84). -/
def State.readBus (s : State) (o : Oracle) : Nibble × State := (o s.trace, (s.emit (.readBus (o s.trace))).tick)

/-- The micro-step `call OP`: "the caller's `UPC` is kept, the callee runs from its own micro-step 0 to its `return`,
and the caller resumes at its next micro-step" (R22). -/
def State.call (s : State) (op : State → State) : State := (op (s.goto 0)).goto (s.upc + 1)

/-- `call OP` for an operation that returns a value (R22). -/
def State.callFor {α : Type} (s : State) (op : State → α × State) : α × State :=
  ((op (s.goto 0)).1, (op (s.goto 0)).2.goto (s.upc + 1))

/-- An operation is running when `UPC` is not 0 or INIT has begun and not completed (R19, R21, R60; DESIGN CHOICE,
log entry 7). -/
def State.running (s : State) : Bool := s.upc != 0 || s.pstate == .initializing

/-- Why the command port does not accept INIT in this state, if it does not (R159, R160). -/
def refusalOfInit (s : State) : Option Refusal :=
  if s.running then some .operationRunning
  else if s.pstate = .uninit then none
  else some .alreadyInitialised

/-- Why the command port does not accept an operation other than INIT in this state, if it does not (R159, R160). -/
def refusalOfOther (s : State) : Option Refusal :=
  if s.running then some .operationRunning
  else if s.pstate = .uninit then some .notInitialised
  else none

/-- `return v` at the command port: the result is observed and no operation is running any more (R21, R70, R168). -/
def State.complete (s : State) (r : Result) : State := { s with upc := 0, results := s.results ++ [r] }

/-- An accepted operation "runs to its `return` before the next is accepted" (R22, R46); a refused one "has no successor
state and emits no event" (R158). -/
def atPort (refusal : Option Refusal) (op : State → Result × State) (s : State) : Outcome :=
  match refusal with
  | some r => .refused r
  | none => .next ((op s).2.complete (op s).1)

/-- The next command word and the state with it consumed whole (R60). -/
def nextCommand (s : State) : Option (CommandWord × State) :=
  match s.commands with
  | [] => none
  | w :: ws => some (w, { s with commands := ws })

end Sys2Proof.Machine
end

