-- ==== Sys2Proof/Machine/SignalSequencer.lean ====
section
/-! DEFINITION. The Signal Sequencer (spec/41_signal_sequencer.md): SEND_NIBBLE, SEND_BYTE, ReadPulse, READ_BUSY, each as
the micro-step list its rule gives, then their meanings at the command port. It calls nothing above itself (R2). -/

namespace Sys2Proof.Machine

/-- The write nibble cycle `MemWrite(rs, 4, v)`: the eight events of R100 (R44). -/
def writeCycle (c : Cfg) (value : Nibble) (mode : Mode) : List PinEvent :=
  [drive .rs (levelOf mode), .setBus value, .deassert .e, .delayUs c.dSetupUs, .assert .e, .delayUs c.dPulseUs,
    .deassert .e, .delayUs c.dSettleUs]

/-- `SEND_NIBBLE(value, mode)` (R100): eight micro-steps, each one event. -/
def sendNibble (c : Cfg) (value : Nibble) (mode : Mode) (s : State) : State := s.emits (writeCycle c value mode)

/-- `SEND_BYTE(value, mode)` (R102): high nibble, then low nibble (R43). -/
def sendByte (c : Cfg) (value : Byte) (mode : Mode) (s : State) : State :=
  (s.call (sendNibble c (hi value) mode)).call (sendNibble c (lo value) mode)

/-- Micro-steps 0 to 3 of ReadPulse (R103). -/
def readPulseOpen (c : Cfg) : List PinEvent :=
  [.deassert .e, .delayUs c.dSetupUs, .assert .e, .delayUs c.dPulseUs]

/-- Micro-steps 5 and 6 of ReadPulse (R103). -/
def readPulseClose (c : Cfg) : List PinEvent := [.deassert .e, .delayUs c.dSettleUs]

/-- `ReadPulse()` (R103), the read nibble cycle `MemRead(0, 4)` (R45): returns the nibble read. -/
def readPulse (c : Cfg) (o : Oracle) (s : State) : Nibble × State :=
  let r := (s.emits (readPulseOpen c)).readBus o
  (r.1, r.2.emits (readPulseClose c))

/-- `READ_BUSY()` (R104): returns `BF`. The second nibble is read and discarded. -/
def readBusy (c : Cfg) (o : Oracle) (s : State) : Bool × State :=
  let s0 := s.emits [.setDir .input, .assert .rw, .deassert .rs]
  let p1 := s0.callFor (readPulse c o)
  let p2 := p1.2.callFor (readPulse c o)
  let s1 := p2.2.emits [.deassert .rw, .setDir .output]
  (busyFlagOf p1.1, { s1 with bf := some (busyFlagOf p1.1) }.tick)

/-- SEND_NIBBLE at the command port, for any configuration (R100, R159). -/
def sendNibbleAt (c : Cfg) (value : Nibble) (mode : Mode) (s : State) : Outcome :=
  atPort (refusalOfOther s) (fun t => (.done, sendNibble c value mode t)) s

/-- SEND_BYTE at the command port, for any configuration (R102, R159). -/
def sendByteAt (c : Cfg) (value : Byte) (mode : Mode) (s : State) : Outcome :=
  atPort (refusalOfOther s) (fun t => (.done, sendByte c value mode t)) s

/-- READ_BUSY at the command port, for any configuration and device: its result is `BF` (R70, R104, R159). -/
def readBusyAt (c : Cfg) (o : Oracle) (s : State) : Outcome :=
  atPort (refusalOfOther s) (fun t => (.busyFlag (readBusy c o t).1, (readBusy c o t).2)) s

/-- The meaning of SEND_NIBBLE. -/
def execSendNibble (value : Nibble) (mode : Mode) (s : State) : Outcome := sendNibbleAt Config.cfg value mode s

/-- The meaning of SEND_BYTE. -/
def execSendByte (value : Byte) (mode : Mode) (s : State) : Outcome := sendByteAt Config.cfg value mode s

/-- The meaning of READ_BUSY. -/
def execReadBusy (s : State) : Outcome := readBusyAt Config.cfg Config.oracle s

end Sys2Proof.Machine
end

