-- ==== Sys2Proof/Machine/ProtocolController.lean ====
section
/-! DEFINITION. The Protocol Controller (spec/42_protocol_controller.md): WAIT_READY, WRITE_COMMAND, WRITE_CHAR, the
pseudo-operation WRITE_STRING, SET_CURSOR, CLEAR, INIT, each as the micro-step list its rule gives, then their meanings
at the command port. Every caller ignores the result of WAIT_READY and SET_CURSOR (R70). -/

namespace Sys2Proof.Machine

/-- The loop of WAIT_READY (R120 steps 1 to 6). The number is `N_POLL_MAX - ATTEMPT`, the loop variant of R121, so the
test of step 1 is that it is 0; no poll follows the bound. -/
def pollLoop (c : Cfg) (o : Oracle) : Nat → State → WaitResult × State
  | 0, s => (.exhausted, s)
  | n + 1, s =>
    let s2 := (s.tick.callFor (readBusy c o)).2
    let s3 := { s2 with attempt := s2.attempt + 1 }.tick
    if s3.bf = some false then (.ready, s3)
    else
      let s4 := s3.tick
      let s5 := if s4.attempt < c.nPollMax ∨ c.pollDelayAfterLast = true then s4.emits [.delayUs c.dPollUs] else s4.tick
      pollLoop c o n (s5.goto 1)

/-- `WAIT_READY()` (R120): step 0 sets `ATTEMPT` to 0. -/
def waitReady (c : Cfg) (o : Oracle) (s : State) : WaitResult × State :=
  pollLoop c o c.nPollMax { s with attempt := 0 }.tick

/-- `WRITE_COMMAND(cmd)` (R124): one busy wait, its result ignored, then the byte in command mode. -/
def writeCommand (c : Cfg) (o : Oracle) (cmd : Byte) (s : State) : State :=
  (s.call fun t => (waitReady c o t).2).call (sendByte c cmd .command)

/-- `WRITE_CHAR(c)` (R127): one busy wait, its result ignored, then the byte in data mode. -/
def writeChar (c : Cfg) (o : Oracle) (ch : Byte) (s : State) : State :=
  (s.call fun t => (waitReady c o t).2).call (sendByte c ch .data)

/-- The loop of WRITE_STRING (R130 steps 1 to 4) on the bytes still to be sent. -/
def stringLoop (c : Cfg) (o : Oracle) : List Byte → State → State
  | [], s => s
  | b :: bs, s => stringLoop c o bs ((s.tick.call (writeChar c o b)).tick.goto 1)

/-- `WRITE_STRING(s)` (R130): a pseudo-operation, with no command word of its own. -/
def writeString (c : Cfg) (o : Oracle) (bytes : List Byte) (s : State) : State := stringLoop c o bytes s.tick

/-- `SET_CURSOR(row, col)` (R134): the guard before anything is emitted, then the positioning command. -/
def setCursor (c : Cfg) (o : Oracle) (row col : Byte) (s : State) : CursorResult × State :=
  if cursorInRange row col then
    (.issued, s.tick.tick.call (writeCommand c o (positioningByte c row col)))
  else (.dropped, s)

/-- `CLEAR()` (R138): WRITE_COMMAND of the clear byte, no extra delay. -/
def clear (c : Cfg) (o : Oracle) (s : State) : State := s.call (writeCommand c o c.cmdClear)

/-- `BOOT02()` (R140): "the command `0x02`" as a byte or as a nibble, by `BOOT02_FORM`; no busy wait. -/
def boot02 (c : Cfg) (s : State) : State :=
  match c.boot02Form with
  | .byte => s.call (sendByte c 0x02#8 .command)
  | .nibble => s.call (sendNibble c 0x2#4 .command)

/-- Micro-steps 1 to 9 of INIT (R140, R141): lines configured and driven to rest, data bus cleared, power-up delay. -/
def initSetup (c : Cfg) : List PinEvent :=
  [.cfgCtlOut .e, .deassert .e, .cfgCtlOut .rs, .deassert .rs, .cfgCtlOut .rw, .deassert .rw, .cfgDataOut,
    .setBus 0x0#4, .delayMs c.dPowerupMs]

/-- Micro-steps 10 to 15 of INIT (R140, R142): the bus-width bootstrap, each transmission followed by its delay. -/
def initBootstrap (c : Cfg) (s : State) : State :=
  let s11 := (s.call (sendNibble c 0x3#4 .command)).emits [.delayUs c.dBootUs]
  let s13 := (boot02 c s11).emits [.delayUs c.dBootUs]
  (boot02 c s13).emits [.delayUs c.dBootUs]

/-- Micro-steps 16 to 20 of INIT (R140): four configuration commands, each behind its own busy wait. -/
def initConfigure (c : Cfg) (o : Oracle) (s : State) : State :=
  let s16 := s.call (writeCommand c o c.cmdFunctionSet2Line)
  let s17 := s16.call (writeCommand c o c.cmdDisplayOn)
  let s18 := s17.call (writeCommand c o c.cmdClear)
  let s19 := s18.emits [.delayMs c.dClearExtraMs]
  s19.call (writeCommand c o c.cmdEntryModeLtr)

/-- `INIT()` (R140): step 0 enters INITIALIZING, step 21 READY (R19, D25). -/
def init (c : Cfg) (o : Oracle) (s : State) : State :=
  let s1 := { s with pstate := .initializing }.tick
  let s20 := initConfigure c o (initBootstrap c (s1.emits (initSetup c)))
  { s20 with pstate := .ready }.tick

/-- WAIT_READY at the command port: its result is READY or EXHAUSTED (R70, R120, R159). -/
def waitReadyAt (c : Cfg) (o : Oracle) (s : State) : Outcome :=
  atPort (refusalOfOther s) (fun t => (.wait (waitReady c o t).1, (waitReady c o t).2)) s

/-- WRITE_COMMAND at the command port (R124, R159). -/
def writeCommandAt (c : Cfg) (o : Oracle) (cmd : Byte) (s : State) : Outcome :=
  atPort (refusalOfOther s) (fun t => (.done, writeCommand c o cmd t)) s

/-- WRITE_CHAR at the command port (R127, R159). -/
def writeCharAt (c : Cfg) (o : Oracle) (ch : Byte) (s : State) : Outcome :=
  atPort (refusalOfOther s) (fun t => (.done, writeChar c o ch t)) s

/-- SET_CURSOR at the command port: its result is ISSUED or DROPPED (R70, R134, R159). -/
def setCursorAt (c : Cfg) (o : Oracle) (row col : Byte) (s : State) : Outcome :=
  atPort (refusalOfOther s) (fun t => (.cursor (setCursor c o row col t).1, (setCursor c o row col t).2)) s

/-- CLEAR at the command port (R138, R159). -/
def clearAt (c : Cfg) (o : Oracle) (s : State) : Outcome :=
  atPort (refusalOfOther s) (fun t => (.done, clear c o t)) s

/-- INIT at the command port (R140, R159). -/
def initAt (c : Cfg) (o : Oracle) (s : State) : Outcome :=
  atPort (refusalOfInit s) (fun t => (.done, init c o t)) s

/-- The meaning of INIT. -/
def execInit (s : State) : Outcome := initAt Config.cfg Config.oracle s

/-- The meaning of WAIT_READY. -/
def execWaitReady (s : State) : Outcome := waitReadyAt Config.cfg Config.oracle s

/-- The meaning of WRITE_COMMAND. -/
def execWriteCommand (cmd : Byte) (s : State) : Outcome := writeCommandAt Config.cfg Config.oracle cmd s

/-- The meaning of WRITE_CHAR. -/
def execWriteChar (ch : Byte) (s : State) : Outcome := writeCharAt Config.cfg Config.oracle ch s

/-- The meaning of SET_CURSOR. -/
def execSetCursor (row col : Byte) (s : State) : Outcome := setCursorAt Config.cfg Config.oracle row col s

/-- The meaning of CLEAR. -/
def execClear (s : State) : Outcome := clearAt Config.cfg Config.oracle s

end Sys2Proof.Machine
end

