-- ==== Sys2Proof/Machine/Dispatch.lean ====
section
/-! DEFINITION. One arm per operation of the opcode table (spec/30_encoding.md R62). -/

namespace Sys2Proof.Machine

def exec (i : Instr) (s : State) : Host.Outcome State Fault Refusal :=
  match i with
  | .sendNibble value mode => Sys2Proof.Machine.execSendNibble value mode s
  | .sendByte value mode => Sys2Proof.Machine.execSendByte value mode s
  | .readBusy => Sys2Proof.Machine.execReadBusy s
  | .init => Sys2Proof.Machine.execInit s
  | .waitReady => Sys2Proof.Machine.execWaitReady s
  | .writeCommand cmd => Sys2Proof.Machine.execWriteCommand cmd s
  | .writeChar c => Sys2Proof.Machine.execWriteChar c s
  | .setCursor row col => Sys2Proof.Machine.execSetCursor row col s
  | .clear => Sys2Proof.Machine.execClear s

end Sys2Proof.Machine
end

