-- ==== Sys2Proof/WellFormed.lean ====
section
/-! DEFINITION. Which calls and which command words are well formed (spec/30_encoding.md R61, R62, R63, R71). Every term
of `Instr` is well formed by its type; what can be ill formed is a call whose operands are numbers of a text, and a
24-bit word. -/

namespace Sys2Proof

/-- An operand of 8 bits: range 0 .. 255 (R63). -/
def isByte (n : Nat) : Bool := n < 256

/-- The nibble operand of SEND_NIBBLE: range 0 .. 15 (R61 format NM, R100). -/
def isNibble (n : Nat) : Bool := n < 16

/-- The operands of a call fit the widths that R61 and R63 give them. `row` and `col` are only bytes here: out-of-range
coordinates are legal operands (R71). -/
def Call.wellFormed : Call → Bool
  | .sendNibble value _ => isNibble value
  | .sendByte value _ => isByte value
  | .readBusy => true
  | .init => true
  | .waitReady => true
  | .writeCommand cmd => isByte cmd
  | .writeChar c => isByte c
  | .setCursor row col => isByte row && isByte col
  | .clear => true
  | .writeString s => s.all isByte

/-- The operations a well-formed call stands for: itself, or for `write_string(s)` one WRITE_CHAR per byte of `s`, in
order (R75); the empty string stands for nothing. -/
def Call.expand : Call → List Instr
  | .sendNibble value mode => [.sendNibble (BitVec.ofNat 4 value) mode]
  | .sendByte value mode => [.sendByte (BitVec.ofNat 8 value) mode]
  | .readBusy => [.readBusy]
  | .init => [.init]
  | .waitReady => [.waitReady]
  | .writeCommand cmd => [.writeCommand (BitVec.ofNat 8 cmd)]
  | .writeChar c => [.writeChar (BitVec.ofNat 8 c)]
  | .setCursor row col => [.setCursor (BitVec.ofNat 8 row) (BitVec.ofNat 8 col)]
  | .clear => [.clear]
  | .writeString s => s.map fun c => .writeChar (BitVec.ofNat 8 c)

/-- One row of the opcode map of R62: a word encodes the row's operation iff `w & mask = match`. -/
structure OpcodeRow where
  mnemonic : String
  pattern : CommandWord
  mask : CommandWord
  deriving DecidableEq, Repr

/-- The nine rows of R62 (spec/opcode_table.json), in its order. -/
def opcodeTable : List OpcodeRow := [
  ⟨"SEND_NIBBLE", 0x010000#24, 0xFFF0FE#24⟩,
  ⟨"SEND_BYTE", 0x020000#24, 0xFF00FE#24⟩,
  ⟨"READ_BUSY", 0x030000#24, 0xFFFFFF#24⟩,
  ⟨"INIT", 0x100000#24, 0xFFFFFF#24⟩,
  ⟨"WAIT_READY", 0x110000#24, 0xFFFFFF#24⟩,
  ⟨"WRITE_COMMAND", 0x120000#24, 0xFF00FF#24⟩,
  ⟨"WRITE_CHAR", 0x130000#24, 0xFF00FF#24⟩,
  ⟨"SET_CURSOR", 0x140000#24, 0xFF0000#24⟩,
  ⟨"CLEAR", 0x150000#24, 0xFFFFFF#24⟩]

/-- "A word `w` encodes the row's operation if and only if `w & mask = match`" (R62). -/
def OpcodeRow.hits (r : OpcodeRow) (w : CommandWord) : Bool := w &&& r.mask == r.pattern

/-- "A command word is illegal when it matches no row" (R71); legal otherwise. -/
def CommandWord.legal (w : CommandWord) : Bool := opcodeTable.any (·.hits w)

/-- The mnemonic of an operation, letter for letter as spec/opcode_table.json has it. -/
def Instr.mnemonic : Instr → String
  | .sendNibble _ _ => "SEND_NIBBLE"
  | .sendByte _ _ => "SEND_BYTE"
  | .readBusy => "READ_BUSY"
  | .init => "INIT"
  | .waitReady => "WAIT_READY"
  | .writeCommand _ => "WRITE_COMMAND"
  | .writeChar _ => "WRITE_CHAR"
  | .setCursor _ _ => "SET_CURSOR"
  | .clear => "CLEAR"

end Sys2Proof
end

