-- ==== Sys2Proof/Decode.lean ====
section
/-! DEFINITION. The command word: decoder (total, rejecting by name) and, after it, encoder (spec/30_encoding.md R60 to
R63, R71). The decoder reads the three fields; the match and mask rows of R62 are `opcodeTable` in WellFormed.lean, and
the two say the same (an obligation). -/

namespace Sys2Proof

/-- Why a command word is illegal (the cases of R71). The machine refuses all of them alike as IllegalWord (R158). -/
inductive DecodeError where
  /-- `op` is not one of the nine listed. -/
  | unknownOp
  /-- A format-Z word with `a` non-zero. -/
  | operandANotZero
  /-- A format-Z or format-B word with `b` non-zero. -/
  | operandBNotZero
  /-- A SEND_NIBBLE word with `a[7:4]` non-zero. -/
  | nibbleTooWide
  /-- An NM or BM word with `b[7:1]` non-zero. -/
  | modeTooWide
  deriving DecidableEq, Repr

/-- `op = w[23:16]` (R60). -/
def CommandWord.op (w : CommandWord) : Byte := w.extractLsb' 16 8

/-- `a = w[15:8]` (R60). -/
def CommandWord.a (w : CommandWord) : Byte := w.extractLsb' 8 8

/-- `b = w[7:0]` (R60). -/
def CommandWord.b (w : CommandWord) : Byte := w.extractLsb' 0 8

/-- `mode = COMMAND` when `m = 0`, `mode = DATA` when `m = 1`, with `m = b[0]` (R61, R63). -/
def modeOfByte (b : Byte) : Mode := if b.getLsbD 0 then .data else .command

/-- The must-be-zero bits `b[7:1]` of formats NM and BM (R61). -/
def modeBitsZero (b : Byte) : Bool := b.extractLsb' 1 7 == 0#7

/-- Format Z: both operand bytes zero (R61). -/
def decodeZ (i : Instr) (a b : Byte) : Except DecodeError Instr :=
  if a ≠ 0#8 then .error .operandANotZero
  else if b ≠ 0#8 then .error .operandBNotZero
  else .ok i

/-- Format NM: `a = 0000vvvv`, `b = 0000000m` (R61). -/
def decodeNM (mk : Nibble → Mode → Instr) (a b : Byte) : Except DecodeError Instr :=
  if a.extractLsb' 4 4 ≠ 0#4 then .error .nibbleTooWide
  else if modeBitsZero b then .ok (mk (a.extractLsb' 0 4) (modeOfByte b))
  else .error .modeTooWide

/-- Format BM: `a` the value, `b = 0000000m` (R61). -/
def decodeBM (mk : Byte → Mode → Instr) (a b : Byte) : Except DecodeError Instr :=
  if modeBitsZero b then .ok (mk a (modeOfByte b)) else .error .modeTooWide

/-- Format B: `a` the command or character, `b` zero (R61). -/
def decodeB (mk : Byte → Instr) (a b : Byte) : Except DecodeError Instr :=
  if b ≠ 0#8 then .error .operandBNotZero else .ok (mk a)

/-- The opcode map of R62 over the three fields of the word. -/
def decodeFields (op a b : Byte) : Except DecodeError Instr :=
  if op = 0x01#8 then decodeNM .sendNibble a b
  else if op = 0x02#8 then decodeBM .sendByte a b
  else if op = 0x03#8 then decodeZ .readBusy a b
  else if op = 0x10#8 then decodeZ .init a b
  else if op = 0x11#8 then decodeZ .waitReady a b
  else if op = 0x12#8 then decodeB .writeCommand a b
  else if op = 0x13#8 then decodeB .writeChar a b
  else if op = 0x14#8 then .ok (.setCursor a b)
  else if op = 0x15#8 then decodeZ .clear a b
  else .error .unknownOp

/-- The operation a command word encodes, or why it is illegal (R60 to R63, R71). Decode looks at nothing but the word. -/
def decode (w : CommandWord) : Except DecodeError Instr := decodeFields w.op w.a w.b

/-- A command word from its three fields (R60). -/
def assembleWord (op a b : Byte) : CommandWord := op ++ a ++ b

/-- The mode bit in a `b` field: COMMAND 0, DATA 1 (R6, R61). -/
def modeByte : Mode → Byte
  | .command => 0#8
  | .data => 1#8

/-- The command word of an operation (R61, R62, the table of R74). -/
def encode : Instr → CommandWord
  | .sendNibble value mode => assembleWord 0x01#8 (0#4 ++ value) (modeByte mode)
  | .sendByte value mode => assembleWord 0x02#8 value (modeByte mode)
  | .readBusy => assembleWord 0x03#8 0#8 0#8
  | .init => assembleWord 0x10#8 0#8 0#8
  | .waitReady => assembleWord 0x11#8 0#8 0#8
  | .writeCommand cmd => assembleWord 0x12#8 cmd 0#8
  | .writeChar c => assembleWord 0x13#8 c 0#8
  | .setCursor row col => assembleWord 0x14#8 row col
  | .clear => assembleWord 0x15#8 0#8 0#8

/-- The command words a call stands for, when its operands fit (R74, R75). -/
def Call.words (c : Call) : Option (List CommandWord) :=
  if c.wellFormed then some (c.expand.map encode) else none

/-- For the host: the operation decoded from a word numbered as spec/opcode_table.json numbers it, bit 0 the least
significant of the one 24-bit word; bits above `nbits` are 0, and a number over 24 bits is no command word (R73). -/
def decodeTableWord (nbits w : Nat) : Option Instr :=
  if w % 2 ^ nbits < 2 ^ 24 then
    match decode (BitVec.ofNat 24 (w % 2 ^ nbits)) with
    | .ok i => some i
    | .error _ => none
  else none

end Sys2Proof
end

