-- ==== Sys2Proof/Machine/Port.lean ====
section
/-! DEFINITION. The command port around the operations: the block for ANY configuration and device (spec/10_state.md R24
makes both parameters of the step relation), of which `exec` and `step` are the case `Config.cfg`, `Config.oracle`; the
refusal of an illegal word (spec/60_exceptions.md R158); and how a word comes to run from reset (spec/70_reset_and_hazards.md
R171; log entry 6). -/

namespace Sys2Proof.Machine

/-- `exec` for any configuration and any device (R24, R84). -/
def execAt (c : Cfg) (o : Oracle) (i : Instr) (s : State) : Outcome :=
  match i with
  | .sendNibble value mode => sendNibbleAt c value mode s
  | .sendByte value mode => sendByteAt c value mode s
  | .readBusy => readBusyAt c o s
  | .init => initAt c o s
  | .waitReady => waitReadyAt c o s
  | .writeCommand cmd => writeCommandAt c o cmd s
  | .writeChar ch => writeCharAt c o ch s
  | .setCursor row col => setCursorAt c o row col s
  | .clear => clearAt c o s

/-- "The model refuses an illegal word" with the one reason IllegalWord, whatever makes it illegal (R71, R158). -/
def refusalOfWord (_ : DecodeError) : Refusal := .illegalWord

/-- With no word waiting "the block does nothing until a command word arrives" (R30, R170; DESIGN CHOICE: the step
answers the state unchanged, log entry 4). -/
def idle (s : State) : Outcome := .next s

/-- `step` for any configuration and any device. -/
def stepAt (c : Cfg) (o : Oracle) (s : State) : Outcome :=
  match nextCommand s with
  | none => idle s
  | some (w, t) =>
    match decode w with
    | .ok i => execAt c o i t
    | .error e => .refused (refusalOfWord e)

/-- The state after `init()` where the port accepts it, the state itself elsewhere. -/
def State.booted (s : State) : State :=
  match execInit s with
  | .next t => t
  | .fault _ => s
  | .refused _ => s

/-- `s` brought to where the very next step runs the word `w`: for every operation but INIT, "`INIT` must have completed
exactly once" (R171), so a state in which INIT is still to be done runs it first; then the word is put at the head of the
command port (DESIGN CHOICE, log entry 6). -/
def State.loadedWith (s : State) (w : CommandWord) : State :=
  let t := match decode w with
    | .ok .init => s
    | .ok _ => s.booted
    | .error _ => s
  { t with commands := w :: t.commands }

end Sys2Proof.Machine
end

