-- ==== Sys2Proof/Machine/Step.lean ====
section
/-! DEFINITION. One step of the block: the next command word is consumed whole, decoded, and its operation run to its
`return` in that one step (log entry 9; spec/30_encoding.md R60; spec/10_state.md R22); decode comes before the refusals
by state (95_test_vectors.md 2.1, R158, R159). -/

namespace Sys2Proof.Machine

/-- One step. -/
def step (s : State) : Host.Outcome State Fault Refusal :=
  match nextCommand s with
  | none => idle s
  | some (w, t) =>
    match decode w with
    | .ok i => exec i t
    | .error e => .refused (refusalOfWord e)

/-- For the host: `s` with the word `w` next at the command port, and INIT run before it where the operation needs a
session (log entry 6). -/
def State.withFetchWord (s : State) (nbits w : Nat) : State := s.loadedWith (BitVec.ofNat 24 (w % 2 ^ nbits))

end Sys2Proof.Machine
end

