-- ==== Sys2Proof/Safety.lean ====
section
/-! DEFINITION. What counts as a safe run, in the terms claims use: the state at rest (spec/10_state.md R32;
spec/70_reset_and_hazards.md R176), the preconditions of the events (spec/40_pin_driver_primitives.md R84 to R88, R92),
the shape of the event lists the operations append (R104, R120, R140), nominal time and the validation of a trace (R184,
R187), and the bus cycles a trace carries (spec/30_encoding.md R64). -/

namespace Sys2Proof.Machine

/-! ### Rest, entry conditions, preconditions -/

/-- The state at rest: `E = DEASSERTED`, `RW = DEASSERTED`, `DIR = OUTPUT`, the four `CFG_*` true (R176). `RS` and
`DB_OUT` are not part of it (90_conflicts.md C2). -/
abbrev Pins.AtRest (p : Pins) : Prop :=
  p.e = some .deasserted ∧ p.rw = some .deasserted ∧ p.dir = some .output ∧
    p.cfgData = true ∧ p.cfgE = true ∧ p.cfgRs = true ∧ p.cfgRw = true

/-- Nothing is running and the session is initialised: the state in which the port accepts every operation but INIT
(R60, R159). -/
abbrev State.Accepting (s : State) : Prop := s.upc = 0 ∧ s.pstate = .ready

/-- Nothing is running and INIT is still to come: the state in which the port accepts INIT (R60, R159). -/
abbrev State.AwaitingInit (s : State) : Prop := s.upc = 0 ∧ s.pstate = .uninit

/-- "Pin configured as output", by line (R20). -/
def Pins.configured (p : Pins) : Line → Bool
  | .e => p.cfgE
  | .rs => p.cfgRs
  | .rw => p.cfgRw

/-- The precondition "in every sequence of the block" of one event, on the latches before it (R82 to R90). "A latch that
is `⊥` satisfies no precondition" (R92). -/
def precondition (p : Pins) : PinEvent → Bool
  | .cfgDataOut => true
  | .cfgCtlOut _ => true
  | .setBus _ => p.dir == some .output && p.cfgData && p.rw == some .deasserted
  | .readBus _ => p.dir == some .input && p.rw == some .asserted && p.rs == some .deasserted && p.e == some .asserted
  | .setDir _ => p.cfgData && p.rw == some .deasserted && p.e == some .deasserted
  | .assert l => p.configured l
  | .deassert l => p.configured l
  | .delayUs _ => true
  | .delayMs _ => true

/-- Every event of the list meets its precondition at the point where it is emitted, from latches `p` (R92). -/
def preconditionsHold (p : Pins) : List PinEvent → Bool
  | [] => true
  | ev :: evs => precondition p ev && preconditionsHold (p.apply ev) evs

/-- Neither the direction nor the read/write line is turned for reading. -/
abbrev Pins.Outward (p : Pins) : Prop := p.dir ≠ some .input ∧ p.rw ≠ some .asserted

/-! ### The events the operations append -/

/-- The two write cycles of SEND_BYTE (R102). -/
def byteEvents (c : Cfg) (value : Byte) (mode : Mode) : List PinEvent :=
  writeCycle c (hi value) mode ++ writeCycle c (lo value) mode

/-- One ReadPulse that read `n` (R103). -/
def readPulseEvents (c : Cfg) (n : Nibble) : List PinEvent := readPulseOpen c ++ .readBus n :: readPulseClose c

/-- One READ_BUSY that read `n1` then `n2` (R104). -/
def readBusyEvents (c : Cfg) (n1 n2 : Nibble) : List PinEvent :=
  [.setDir .input, .assert .rw, .deassert .rs] ++ readPulseEvents c n1 ++ readPulseEvents c n2 ++
    [.deassert .rw, .setDir .output]

/-- "Inside the operation, and nowhere else in the block" (R105): from latches `p`, these events are pieces one after
another, of which each is one whole READ_BUSY or has no event that turns the bus for reading; and if the bus is not so
turned to begin with, it is not at any point outside the READ_BUSYs, their ends included. -/
def InputOnlyInReads (c : Cfg) (p : Pins) (evs : List PinEvent) : Prop :=
  ∃ parts : List (List PinEvent), evs = parts.flatten ∧
    (∀ part ∈ parts, (∃ n1 n2, part = readBusyEvents c n1 n2) ∨
      ∀ ev ∈ part, ev ≠ .setDir .input ∧ ev ≠ .assert .rw) ∧
    (p.Outward → (p.replay evs).Outward) ∧
    (p.Outward → ∀ pre part post, parts = pre ++ part :: post → (∃ n1 n2, part = readBusyEvents c n1 n2) ∨
      ∀ k, k ≤ part.length → (p.replay (pre.flatten ++ part.take k)).Outward)

/-- The two nibbles one poll read, in order. -/
abbrev Answer := Nibble × Nibble

/-- The delay after a busy poll, the `made`-th of its wait: if another poll follows, or always where
`POLL_DELAY_AFTER_LAST` (R120 step 5). -/
def pollDelay (c : Cfg) (made : Nat) : List PinEvent :=
  if made < c.nPollMax ∨ c.pollDelayAfterLast = true then [.delayUs c.dPollUs] else []

/-- The polls of a WAIT_READY that has made `made` polls already and then reads these answers (R120). -/
def pollEvents (c : Cfg) (made : Nat) : List Answer → List PinEvent
  | [] => []
  | a :: rest =>
    readBusyEvents c a.1 a.2 ++ ((if busyFlagOf a.1 then pollDelay c (made + 1) else []) ++ pollEvents c (made + 1) rest)

/-- The events of one WAIT_READY that read these answers (R120). -/
def waitEvents (c : Cfg) (answers : List Answer) : List PinEvent := pollEvents c 0 answers

/-- These answers are those of one WAIT_READY of at most `n` polls: the first ready answer is the last, or there are `n`
answers, all busy (R120, R174). -/
def isWaitOf : Nat → List Answer → Bool
  | 0, answers => answers.isEmpty
  | _ + 1, [] => false
  | n + 1, a :: rest => if busyFlagOf a.1 then isWaitOf n rest else rest.isEmpty

/-- `BF` after a wait that read these answers: the flag of the last poll (R120). -/
def flagAfter (old : Option Bool) (answers : List Answer) : Option Bool :=
  answers.foldl (fun _ a => some (busyFlagOf a.1)) old

/-- What the wait returns: EXHAUSTED when every answer was busy, READY otherwise (R120). -/
def waitResultOf (answers : List Answer) : WaitResult :=
  if answers.all (fun a => busyFlagOf a.1) then .exhausted else .ready

/-- The events of one bootstrap transmission of `0x02` (R140 `BOOT02`). -/
def boot02Events (c : Cfg) : List PinEvent :=
  match c.boot02Form with
  | .byte => byteEvents c 0x02#8 .command
  | .nibble => writeCycle c 0x2#4 .command

/-- Steps 10 to 15 of INIT (R140). -/
def bootstrapEvents (c : Cfg) : List PinEvent :=
  writeCycle c 0x3#4 .command ++ [.delayUs c.dBootUs] ++ boot02Events c ++ [.delayUs c.dBootUs] ++
    boot02Events c ++ [.delayUs c.dBootUs]

/-- A command byte behind its own wait (R124). -/
def commandEvents (c : Cfg) (answers : List Answer) (cmd : Byte) : List PinEvent :=
  waitEvents c answers ++ byteEvents c cmd .command

/-- The events of INIT whose four waits read these answers (R140). -/
def initEvents (c : Cfg) (w1 w2 w3 w4 : List Answer) : List PinEvent :=
  initSetup c ++ bootstrapEvents c ++ commandEvents c w1 c.cmdFunctionSet2Line ++ commandEvents c w2 c.cmdDisplayOn ++
    commandEvents c w3 c.cmdClear ++ [.delayMs c.dClearExtraMs] ++ commandEvents c w4 c.cmdEntryModeLtr

/-- Every bus read of `evs`, performed after the trace `before`, carries the oracle's answer at that point (R84). -/
def answeredBy (o : Oracle) (before : List PinEvent) : List PinEvent → Bool
  | [] => true
  | ev :: evs =>
    (match ev with
      | .readBus v => v == o before
      | _ => true) && answeredBy o (before ++ [ev]) evs

/-- `s` after these events have been performed, nothing but latches and trace changed (R80). -/
def State.ran (s : State) (evs : List PinEvent) : State :=
  { s with pins := s.pins.replay evs, trace := s.trace ++ evs }

/-- `s` with what a wait that read these answers leaves in `BF` and `ATTEMPT`: the last flag and the number of polls
made (R120). -/
def State.polled (s : State) (answers : List Answer) : State :=
  { s with bf := flagAfter s.bf answers, attempt := answers.length }

/-! ### What an operation leaves, written out -/

/-- `s` after one write nibble cycle: "`RS <- (mode = DATA)`, `DB_OUT <- value`, `E` ends `DEASSERTED`", eight events
(R100). -/
def State.afterNibble (s : State) (c : Cfg) (value : Nibble) (mode : Mode) : State :=
  { s with
    pins := { s.pins with dbOut := some value, rs := some (levelOf mode), e := some .deasserted }
    trace := s.trace ++ writeCycle c value mode }

/-- `s` after one byte: "`DB_OUT = value & 0xF`, `RS = (mode = DATA)`, `E = DEASSERTED`", sixteen events (R102). -/
def State.afterByte (s : State) (c : Cfg) (value : Byte) (mode : Mode) : State :=
  { s with
    pins := { s.pins with dbOut := some (lo value), rs := some (levelOf mode), e := some .deasserted }
    trace := s.trace ++ byteEvents c value mode }

/-- `s` after one busy-flag read that read `n1` then `n2`: the latches of R105, `DB_OUT` kept, `BF <- n1[3]` (R104). -/
def State.afterRead (s : State) (c : Cfg) (n1 n2 : Nibble) : State :=
  { s with
    pins := { s.pins with e := some .deasserted, rs := some .deasserted, rw := some .deasserted, dir := some .output }
    bf := some (busyFlagOf n1)
    trace := s.trace ++ readBusyEvents c n1 n2 }

/-- `s` after one wait that read these answers: the latches of R105, `DB_OUT` kept, `BF` 0 after READY and 1 after
EXHAUSTED, `ATTEMPT` the number of polls made (R120). -/
def State.afterWait (s : State) (c : Cfg) (answers : List Answer) : State :=
  { s with
    pins := { s.pins with e := some .deasserted, rs := some .deasserted, rw := some .deasserted, dir := some .output }
    bf := some (waitResultOf answers == .exhausted)
    attempt := answers.length
    trace := s.trace ++ waitEvents c answers }

/-- `s` after INIT, whose four waits read these answers: the final values of R31. -/
def State.afterInit (s : State) (c : Cfg) (w1 w2 w3 w4 : List Answer) : State :=
  { s with
    pins :=
      { dbOut := some (lo c.cmdEntryModeLtr), e := some .deasserted, rs := some .deasserted, rw := some .deasserted,
        dir := some .output, cfgData := true, cfgE := true, cfgRs := true, cfgRw := true }
    pstate := .ready
    bf := some (waitResultOf w4 == .exhausted)
    attempt := w4.length
    trace := s.trace ++ initEvents c w1 w2 w3 w4 }

/-- `n` steps of the block for any configuration and device, while each answers a next state. -/
def runAt (c : Cfg) (o : Oracle) : Nat → State → Outcome
  | 0, s => .next s
  | n + 1, s =>
    match stepAt c o s with
    | .next t => runAt c o n t
    | .fault f => .fault f
    | .refused r => .refused r

/-- The values put on the data bus, in order. -/
def busValues : List PinEvent → List Nibble
  | [] => []
  | .setBus v :: evs => v :: busValues evs
  | _ :: evs => busValues evs

/-! ### Which operation writes which latch (R16) -/

/-- The columns of the table of R16. -/
inductive Latch where
  | dbOut
  | e
  | rs
  | rw
  | dir
  | cfg
  deriving DecidableEq, Repr

/-- The latches an event writes (R82 to R90). -/
def latchesOf : PinEvent → List Latch
  | .cfgDataOut => [.cfg, .dir]
  | .cfgCtlOut _ => [.cfg]
  | .setBus _ => [.dbOut]
  | .readBus _ => []
  | .setDir _ => [.dir]
  | .assert .e => [.e]
  | .assert .rs => [.rs]
  | .assert .rw => [.rw]
  | .deassert .e => [.e]
  | .deassert .rs => [.rs]
  | .deassert .rw => [.rw]
  | .delayUs _ => []
  | .delayMs _ => []

/-- The rows of the table of R16: the latches marked "W". -/
def latchesWrittenBy : Instr → List Latch
  | .sendNibble _ _ => [.dbOut, .e, .rs]
  | .sendByte _ _ => [.dbOut, .e, .rs]
  | .readBusy => [.e, .rs, .rw, .dir]
  | .init => [.dbOut, .e, .rs, .rw, .dir, .cfg]
  | .waitReady => [.e, .rs, .rw, .dir]
  | .writeCommand _ => [.dbOut, .e, .rs, .rw, .dir]
  | .writeChar _ => [.dbOut, .e, .rs, .rw, .dir]
  | .setCursor row col => if cursorInRange row col then [.dbOut, .e, .rs, .rw, .dir] else []
  | .clear => [.dbOut, .e, .rs, .rw, .dir]

/-- One transmission behind its wait: the events of one WAIT_READY, then those of one byte (R174). -/
def IsWaitedByte (c : Cfg) (evs : List PinEvent) : Prop :=
  ∃ (answers : List Answer) (b : Byte) (m : Mode), evs = waitEvents c answers ++ byteEvents c b m ∧
    1 ≤ answers.length ∧ answers.length ≤ c.nPollMax ∧
    ∀ a, answers.getLast? = some a → busyFlagOf a.1 = false ∨ answers.length = c.nPollMax

/-! ### Time (R89 to R91, R184): nominal durations only (log entry 8) -/

/-- `dur(ev)`, the nominal duration in microseconds (R89, R90, R91). -/
def dur : PinEvent → Nat
  | .delayUs n => n
  | .delayMs n => 1000 * n
  | _ => 0

/-- The nominal duration of a list of events. -/
def nominal (evs : List PinEvent) : Nat := (evs.map dur).sum

/-- `tau(i)`, the nominal time of event `i` of a trace (R184). -/
def tau (tr : List PinEvent) (i : Nat) : Nat := nominal (tr.take i)

/-- `P`, the nominal duration of one enable pulse (R106). -/
def pulseUs (c : Cfg) : Nat := c.dSetupUs + c.dPulseUs + c.dSettleUs

/-! ### Validation of a trace (R187); where TV1 to TV4 look back to an event and there is none, as log entry 13 says
(DEDUCED) -/

/-- A line event: any Assert or Deassert of RS or RW, any SetDir, any SetBus (R187). -/
def isLineEvent : PinEvent → Bool
  | .assert l => l != .e
  | .deassert l => l != .e
  | .setDir _ => true
  | .setBus _ => true
  | _ => false

/-- What the events so far leave for the checks of R187 to look back on: the latches, and in nominal microseconds the
time since the last line event, since the Assert(E) of an open pulse, and since the Deassert(E) that closed a pulse, as
long as no line event or Assert(E) has followed it. -/
structure Watch where
  pins : Pins
  sinceLine : Option Nat
  sinceAssert : Option Nat
  sinceClose : Option Nat
  deriving DecidableEq, Repr

/-- Watching starts on latches `p` with nothing to look back on. -/
def Watch.start (p : Pins) : Watch := ⟨p, none, none, none⟩

/-- What there is to look back on after one more event. -/
def Watch.after (w : Watch) (ev : PinEvent) : Watch where
  pins := w.pins.apply ev
  sinceLine := if isLineEvent ev then some 0 else w.sinceLine.map (· + dur ev)
  sinceAssert :=
    if ev = .assert .e then some 0 else if ev = .deassert .e then none else w.sinceAssert.map (· + dur ev)
  sinceClose :=
    if ev = .deassert .e ∧ w.pins.e = some .asserted then some 0
    else if isLineEvent ev ∨ ev = .assert .e then none
    else w.sinceClose.map (· + dur ev)

/-- A time that is `none` asks nothing; one that is there is at least `t`. -/
def atLeast (t : Rat) : Option Nat → Bool
  | none => true
  | some n => t ≤ n

/-- TV1, set-up: at an Assert(E), the last line event lies at least `T_SETUP_MIN` back. -/
def tv1 (c : Cfg) (w : Watch) (ev : PinEvent) : Bool := ev != .assert .e || atLeast c.tSetupMin w.sinceLine

/-- An event that may stand strictly inside a pulse: a delay or a ReadBus (R177, R187 TV2). -/
def mayStandInPulse : PinEvent → Bool
  | .delayUs _ => true
  | .delayMs _ => true
  | .readBus _ => true
  | _ => false

/-- TV2, width: the Deassert(E) after an Assert(E) comes at least `T_PW_MIN` later, with only delays and reads between. -/
def tv2 (c : Cfg) (w : Watch) (ev : PinEvent) : Bool :=
  w.sinceAssert.isNone || (if ev = .deassert .e then atLeast c.tPwMin w.sinceAssert else mayStandInPulse ev)

/-- TV3, settle: the next line event or Assert(E) after a pulse was closed comes at least `T_SETTLE_MIN` later. -/
def tv3 (c : Cfg) (w : Watch) (ev : PinEvent) : Bool :=
  !(isLineEvent ev || ev == .assert .e) || atLeast c.tSettleMin w.sinceClose

/-- TV4, sampling: a ReadBus occurs with `E` and `RW` asserted, `RS` deasserted, `DIR = INPUT`, at least `D_PULSE_US`
after the Assert(E) of its pulse. -/
def tv4 (c : Cfg) (w : Watch) : PinEvent → Bool
  | .readBus _ =>
    w.pins.e == some .asserted && w.pins.rw == some .asserted && w.pins.rs == some .deasserted &&
      w.pins.dir == some .input && w.sinceAssert.any (fun t => c.dPulseUs ≤ t)
  | _ => true

/-- `RW = ASSERTED` implies `DIR = INPUT` (R55, R177, R187 TV5). -/
abbrev Pins.NoContention (p : Pins) : Prop := p.rw = some .asserted → p.dir = some .input

/-- TV5, ownership: no contention after the event, and a SetBus occurs with `DIR = OUTPUT`. -/
def tv5 (w : Watch) (ev : PinEvent) : Bool :=
  decide (w.pins.apply ev).NoContention &&
    (match ev with
      | .setBus _ => w.pins.dir == some .output
      | _ => true)

/-- TV1, TV2's width and TV3, the three requirements that rest on the constants (R186, R187). -/
def timingHolds (c : Cfg) (w : Watch) : List PinEvent → Bool
  | [] => true
  | ev :: evs => tv1 c w ev && tv2 c w ev && tv3 c w ev && timingHolds c (w.after ev) evs

/-- TV4, TV5 and the second clause of TV2, which hold whatever the constants (R187). -/
def sequencingHolds (c : Cfg) (w : Watch) : List PinEvent → Bool
  | [] => true
  | ev :: evs =>
    (w.sinceAssert.isNone || ev == .deassert .e || mayStandInPulse ev) && tv4 c w ev && tv5 w ev &&
      sequencingHolds c (w.after ev) evs

/-- What the events leave to look back on. -/
def Watch.afterAll (w : Watch) (evs : List PinEvent) : Watch := evs.foldl Watch.after w

/-- A `DelayUs(40)` follows, and no Assert(E) stands before it (R187 TV6). Where no Assert(E) follows at all the delay is
asked for just the same (DEDUCED, log entry 13: TV6 has no "if any"). -/
def delayBeforeNextPulse : List PinEvent → Bool
  | [] => false
  | ev :: evs => ev == .delayUs 40 || (ev != .assert .e && delayBeforeNextPulse evs)

/-- How many events into an INIT each of the three bootstrap transmissions ends (R140, R143). -/
def bootstrapEnds (c : Cfg) : List Nat :=
  let n := (boot02Events c).length
  [17, 18 + n, 19 + 2 * n]

/-- TV6, bootstrap, of the events of an INIT (R187). -/
def tv6 (c : Cfg) (evs : List PinEvent) : Bool :=
  (bootstrapEnds c).all fun k => k ≤ evs.length && delayBeforeNextPulse (evs.drop k)

/-- A SetBus event. -/
def isSetBus : PinEvent → Bool
  | .setBus _ => true
  | _ => false

/-- Invariant (a) on a trace: every SetDir(INPUT) is followed, exactly 18 events later, by a SetDir(OUTPUT), and no
SetBus lies between them (R173). -/
def turnaroundHolds : List PinEvent → Bool
  | [] => true
  | ev :: evs =>
    (ev != .setDir .input || (evs[17]? == some (.setDir .output) && (evs.take 17).all (fun e => !isSetBus e))) &&
      turnaroundHolds evs

/-! ### What the device sees (R64, R101) -/

/-- One bus cycle on the wire: format W with its `RS` and nibble, or format R with the nibble sampled (R64). -/
inductive BusCycle where
  | write (rs : Option Level) (db : Option Nibble)
  | read (rs : Option Level) (db : Nibble)
  deriving DecidableEq, Repr

/-- The bus cycles of a list of events from latches `p`: a pulse with `RW` deasserted is a write cycle, and a read is what
ReadBus sampled with `RW` asserted (R64). On which edge of the pulse the device latches a write "the source does not say"
(R101); that a cycle is counted, and its value taken, at the closing Deassert(E) is a DESIGN CHOICE (log entry 17). In
every write cycle of the block the lines are constant over the pulse, so either edge gives the same cycles (R101). -/
def busCycles (p : Pins) : List PinEvent → List BusCycle
  | [] => []
  | ev :: evs =>
    (if ev = .deassert .e ∧ p.e = some .asserted ∧ p.rw = some .deasserted then [BusCycle.write p.rs p.dbOut]
      else match ev with
        | .readBus v => if p.rw = some .asserted then [BusCycle.read p.rs v] else []
        | _ => []) ++ busCycles (p.apply ev) evs

/-! ### The invariant of the whole machine -/

/-- The latches are what the recorded events make of the reset latches (R23, R80), and nothing is running between two
steps (R21). Before INIT nothing has happened (R30); after it the block is at rest, the last poll left its flag and its
count (R31, R32, R176). -/
structure State.Sound (c : Cfg) (s : State) : Prop where
  pins_eq : s.pins = Pins.reset.replay s.trace
  idle : s.upc = 0
  before_init : s.pstate = .uninit → s.trace = [] ∧ s.bf = none ∧ s.attempt = 0
  not_initializing : s.pstate ≠ .initializing
  after_init : s.pstate = .ready →
    s.pins.AtRest ∧ s.bf.isSome = true ∧ 1 ≤ s.attempt ∧ s.attempt ≤ c.nPollMax ∧
      s.pins.rs.isSome = true ∧ s.pins.dbOut.isSome = true

/-- The whole trace since reset meets every requirement of R187 but TV6, and is left so that any operation may follow:
no pulse is open, and a closed pulse has settled. -/
structure State.TimingSound (c : Cfg) (s : State) : Prop where
  timing : timingHolds c (Watch.start Pins.reset) s.trace = true
  sequencing : sequencingHolds c (Watch.start Pins.reset) s.trace = true
  settled : atLeast c.tSettleMin ((Watch.start Pins.reset).afterAll s.trace).sinceClose = true
  closed : ((Watch.start Pins.reset).afterAll s.trace).sinceAssert = none

end Sys2Proof.Machine
end

