-- ==== Sys2Proof/Laws/State.lean ====
section
/-! SUPPORT. One lemma per field per state update, true by unfolding, so that no later proof unfolds a record update. -/

namespace Sys2Proof.Machine

section
variable (s : State) (ev : PinEvent) (n : Nat) (r : Result) (evs : List PinEvent) (answers : List Answer)

@[simp] theorem State.emit_pins : (s.emit ev).pins = s.pins.apply ev := rfl
@[simp] theorem State.emit_pstate : (s.emit ev).pstate = s.pstate := rfl
@[simp] theorem State.emit_bf : (s.emit ev).bf = s.bf := rfl
@[simp] theorem State.emit_attempt : (s.emit ev).attempt = s.attempt := rfl
@[simp] theorem State.emit_upc : (s.emit ev).upc = s.upc := rfl
@[simp] theorem State.emit_trace : (s.emit ev).trace = s.trace ++ [ev] := rfl
@[simp] theorem State.emit_commands : (s.emit ev).commands = s.commands := rfl
@[simp] theorem State.emit_results : (s.emit ev).results = s.results := rfl

@[simp] theorem State.tick_pins : s.tick.pins = s.pins := rfl
@[simp] theorem State.tick_pstate : s.tick.pstate = s.pstate := rfl
@[simp] theorem State.tick_bf : s.tick.bf = s.bf := rfl
@[simp] theorem State.tick_attempt : s.tick.attempt = s.attempt := rfl
@[simp] theorem State.tick_upc : s.tick.upc = s.upc + 1 := rfl
@[simp] theorem State.tick_trace : s.tick.trace = s.trace := rfl
@[simp] theorem State.tick_commands : s.tick.commands = s.commands := rfl
@[simp] theorem State.tick_results : s.tick.results = s.results := rfl

@[simp] theorem State.goto_pins : (s.goto n).pins = s.pins := rfl
@[simp] theorem State.goto_pstate : (s.goto n).pstate = s.pstate := rfl
@[simp] theorem State.goto_bf : (s.goto n).bf = s.bf := rfl
@[simp] theorem State.goto_attempt : (s.goto n).attempt = s.attempt := rfl
@[simp] theorem State.goto_upc : (s.goto n).upc = n := rfl
@[simp] theorem State.goto_trace : (s.goto n).trace = s.trace := rfl
@[simp] theorem State.goto_commands : (s.goto n).commands = s.commands := rfl
@[simp] theorem State.goto_results : (s.goto n).results = s.results := rfl

@[simp] theorem State.complete_pins : (s.complete r).pins = s.pins := rfl
@[simp] theorem State.complete_pstate : (s.complete r).pstate = s.pstate := rfl
@[simp] theorem State.complete_bf : (s.complete r).bf = s.bf := rfl
@[simp] theorem State.complete_attempt : (s.complete r).attempt = s.attempt := rfl
@[simp] theorem State.complete_upc : (s.complete r).upc = 0 := rfl
@[simp] theorem State.complete_trace : (s.complete r).trace = s.trace := rfl
@[simp] theorem State.complete_commands : (s.complete r).commands = s.commands := rfl
@[simp] theorem State.complete_results : (s.complete r).results = s.results ++ [r] := rfl

@[simp] theorem State.ran_pins : (s.ran evs).pins = s.pins.replay evs := rfl
@[simp] theorem State.ran_pstate : (s.ran evs).pstate = s.pstate := rfl
@[simp] theorem State.ran_bf : (s.ran evs).bf = s.bf := rfl
@[simp] theorem State.ran_attempt : (s.ran evs).attempt = s.attempt := rfl
@[simp] theorem State.ran_upc : (s.ran evs).upc = s.upc := rfl
@[simp] theorem State.ran_trace : (s.ran evs).trace = s.trace ++ evs := rfl
@[simp] theorem State.ran_commands : (s.ran evs).commands = s.commands := rfl
@[simp] theorem State.ran_results : (s.ran evs).results = s.results := rfl

@[simp] theorem State.polled_pins : (s.polled answers).pins = s.pins := rfl
@[simp] theorem State.polled_pstate : (s.polled answers).pstate = s.pstate := rfl
@[simp] theorem State.polled_bf : (s.polled answers).bf = flagAfter s.bf answers := rfl
@[simp] theorem State.polled_attempt : (s.polled answers).attempt = answers.length := rfl
@[simp] theorem State.polled_upc : (s.polled answers).upc = s.upc := rfl
@[simp] theorem State.polled_trace : (s.polled answers).trace = s.trace := rfl
@[simp] theorem State.polled_commands : (s.polled answers).commands = s.commands := rfl
@[simp] theorem State.polled_results : (s.polled answers).results = s.results := rfl

end

end Sys2Proof.Machine
end

