-- ==== Sys2Proof/Laws/Ops.lean ====
section
/-! SUPPORT. What the shared operations do, once each: a run of events, a call, a bus read, the command port. -/

namespace Sys2Proof.Machine

theorem Pins.replay_append (p : Pins) (a b : List PinEvent) : p.replay (a ++ b) = (p.replay a).replay b :=
  List.foldl_append

theorem State.ran_append (s : State) (a b : List PinEvent) : s.ran (a ++ b) = (s.ran a).ran b := by
  simp [State.ran, Pins.replay_append]

theorem State.ran_goto (s : State) (a : List PinEvent) (n : Nat) : (s.goto n).ran a = (s.ran a).goto n := rfl

/-- A run of event micro-steps performs exactly its events, in order, and advances UPC by their number. -/
theorem State.emits_eq (evs : List PinEvent) : ∀ s : State, s.emits evs = (s.ran evs).goto (s.upc + evs.length) := by
  induction evs with
  | nil => intro s; simp [State.emits, State.ran, State.goto, Pins.replay]
  | cons ev evs ih =>
    intro s
    have h : s.emits (ev :: evs) = ((s.emit ev).tick).emits evs := rfl
    rw [h, ih]
    simp [State.ran, State.goto, State.emit, State.tick, Pins.replay, Nat.add_assoc, Nat.add_comm 1]

/-- A bus read records the oracle's answer and changes no latch (R84). -/
theorem State.readBus_eq (s : State) (o : Oracle) :
    s.readBus o = (o s.trace, (s.ran [.readBus (o s.trace)]).goto (s.upc + 1)) := rfl

/-- The command port answers a refusal exactly when it has one, and otherwise the completed operation. -/
theorem atPort_next {refusal : Option Refusal} {op : State → Result × State} {s t : State}
    (h : atPort refusal op s = .next t) : refusal = none ∧ t = (op s).2.complete (op s).1 := by
  cases refusal with
  | none => exact ⟨rfl, by simpa [atPort] using h.symm⟩
  | some r => simp [atPort] at h

theorem atPort_none (op : State → Result × State) (s : State) :
    atPort none op s = .next ((op s).2.complete (op s).1) := rfl

theorem refusalOfOther_accepting {s : State} (h : s.Accepting) : refusalOfOther s = none := by
  simp [refusalOfOther, State.running, h.1, h.2]

theorem refusalOfInit_awaiting {s : State} (h : s.AwaitingInit) : refusalOfInit s = none := by
  simp [refusalOfInit, State.running, h.1, h.2]

/-- The port accepts an operation other than INIT in the accepting states only. -/
theorem accepting_of_refusalOfOther {s : State} (h : refusalOfOther s = none) : s.Accepting := by
  unfold refusalOfOther State.running at h
  rcases hp : s.pstate with _ | _ | _ <;> by_cases hu : s.upc = 0 <;> simp_all [State.Accepting]

/-- The port accepts INIT in the states that await it only. -/
theorem awaiting_of_refusalOfInit {s : State} (h : refusalOfInit s = none) : s.AwaitingInit := by
  unfold refusalOfInit State.running at h
  rcases hp : s.pstate with _ | _ | _ <;> by_cases hu : s.upc = 0 <;> simp_all [State.AwaitingInit]

theorem answeredBy_append (o : Oracle) (a b : List PinEvent) :
    ∀ before, answeredBy o before (a ++ b) = (answeredBy o before a && answeredBy o (before ++ a) b) := by
  induction a with
  | nil => simp [answeredBy]
  | cons ev a ih => intro before; simp [answeredBy, ih, Bool.and_assoc]

end Sys2Proof.Machine
end

