-- ==== Sys2Proof/Laws/SignalSequencer.lean ====
section
/-! SUPPORT. What each Signal Sequencer operation does, as one equation: the events it performs, and its UPC. -/

namespace Sys2Proof.Machine

theorem writeCycle_length (c : Cfg) (v : Nibble) (m : Mode) : (writeCycle c v m).length = 8 := rfl

theorem byteEvents_length (c : Cfg) (v : Byte) (m : Mode) : (byteEvents c v m).length = 16 := rfl

theorem readPulseEvents_length (c : Cfg) (n : Nibble) : (readPulseEvents c n).length = 7 := rfl

theorem readBusyEvents_length (c : Cfg) (n1 n2 : Nibble) : (readBusyEvents c n1 n2).length = 19 := rfl

theorem sendNibble_eq (c : Cfg) (v : Nibble) (m : Mode) (s : State) :
    sendNibble c v m s = (s.ran (writeCycle c v m)).goto (s.upc + 8) := by
  rw [sendNibble, State.emits_eq, writeCycle_length]

theorem sendByte_eq (c : Cfg) (v : Byte) (m : Mode) (s : State) :
    sendByte c v m s = (s.ran (byteEvents c v m)).goto (s.upc + 2) := by
  simp only [sendByte, State.call, sendNibble_eq, byteEvents, State.ran_append]
  rfl

theorem readPulse_eq (c : Cfg) (o : Oracle) (s : State) :
    readPulse c o s = (o (s.trace ++ readPulseOpen c),
      (s.ran (readPulseEvents c (o (s.trace ++ readPulseOpen c)))).goto (s.upc + 7)) := by
  have h : readPulseEvents c (o (s.trace ++ readPulseOpen c)) =
      readPulseOpen c ++ ([.readBus (o (s.trace ++ readPulseOpen c))] ++ readPulseClose c) := rfl
  simp only [readPulse, State.emits_eq, State.readBus_eq, h, State.ran_append]
  rfl

/-- The events of READ_BUSY before its first bus read, and between its first and its second. -/
def readBusyHead (c : Cfg) : List PinEvent := [.setDir .input, .assert .rw, .deassert .rs] ++ readPulseOpen c

/-- What READ_BUSY reads from this trace on: its two answers, in order. -/
def readBusyAnswer (c : Cfg) (o : Oracle) (tr : List PinEvent) : Answer :=
  let n1 := o (tr ++ readBusyHead c)
  (n1, o (tr ++ readBusyHead c ++ .readBus n1 :: readPulseClose c ++ readPulseOpen c))

theorem readBusy_eq (c : Cfg) (o : Oracle) (s : State) :
    readBusy c o s =
      (busyFlagOf (readBusyAnswer c o s.trace).1,
        { s.ran (readBusyEvents c (readBusyAnswer c o s.trace).1 (readBusyAnswer c o s.trace).2) with
          bf := some (busyFlagOf (readBusyAnswer c o s.trace).1), upc := s.upc + 8 }) := by
  simp only [readBusy, State.callFor, readPulse_eq, State.emits_eq, readBusyAnswer, readBusyHead, readBusyEvents,
    State.ran_append, readPulseEvents]
  simp [State.ran, State.goto, State.tick, Pins.replay, readPulseOpen, readPulseClose]

theorem readBusyAnswer_answered (c : Cfg) (o : Oracle) (tr : List PinEvent) :
    answeredBy o tr (readBusyEvents c (readBusyAnswer c o tr).1 (readBusyAnswer c o tr).2) = true := by
  simp [answeredBy, readBusyEvents, readPulseEvents, readPulseOpen, readPulseClose, readBusyAnswer, readBusyHead]

end Sys2Proof.Machine
end

