-- ==== Sys2Proof/Laws/ProtocolController.lean ====
section
/-! SUPPORT. What each Protocol Controller operation does: for the answers its waits read, the events it performs and
what it leaves in BF, ATTEMPT and UPC. -/

namespace Sys2Proof.Machine

/-- One pass of the loop whose poll read busy goes on with the rest of the loop, the delay of step 5 performed. -/
theorem pollLoop_busy (c : Cfg) (o : Oracle) (n : Nat) (s : State) {a : Answer} (ha : a = readBusyAnswer c o s.trace)
    (hb : busyFlagOf a.1 = true) :
    pollLoop c o (n + 1) s = pollLoop c o n
      { s.ran (readBusyEvents c a.1 a.2 ++ pollDelay c (s.attempt + 1)) with
        bf := some true, attempt := s.attempt + 1, upc := 1 } := by
  obtain ⟨pins, pstate, bf, attempt, upc, trace, commands, results⟩ := s
  subst ha
  by_cases hd : attempt + 1 < c.nPollMax ∨ c.pollDelayAfterLast = true
  all_goals
    simp only at hb
    simp only [pollLoop, State.callFor, readBusy_eq, State.goto, State.tick, State.ran, hb, pollDelay, hd, if_true,
      if_false, State.emits_eq, Pins.replay_append, List.append_assoc]
    simp [Pins.replay]

/-- One pass of the loop whose poll read ready is the last. -/
theorem pollLoop_ready (c : Cfg) (o : Oracle) (n : Nat) (s : State) {a : Answer} (ha : a = readBusyAnswer c o s.trace)
    (hb : busyFlagOf a.1 = false) :
    pollLoop c o (n + 1) s = (.ready,
      { s.ran (readBusyEvents c a.1 a.2) with bf := some false, attempt := s.attempt + 1, upc := s.upc + 3 }) := by
  obtain ⟨pins, pstate, bf, attempt, upc, trace, commands, results⟩ := s
  subst ha
  simp only at hb
  simp [pollLoop, State.callFor, readBusy_eq, State.goto, State.tick, State.ran, hb]

theorem flagAfter_cons (old : Option Bool) (a : Answer) (rest : List Answer) :
    flagAfter old (a :: rest) = flagAfter (some (busyFlagOf a.1)) rest := rfl

theorem waitResultOf_busy {a : Answer} (hb : busyFlagOf a.1 = true) (rest : List Answer) :
    waitResultOf (a :: rest) = waitResultOf rest := by simp [waitResultOf, hb]

/-- The loop of WAIT_READY, from any state: it reads the answers of one wait of at most `n` polls. -/
theorem pollLoop_spec (c : Cfg) (o : Oracle) :
    ∀ (n : Nat) (s : State), ∃ (answers : List Answer) (u : Nat),
      isWaitOf n answers = true ∧ answeredBy o s.trace (pollEvents c s.attempt answers) = true ∧
      pollLoop c o n s = (waitResultOf answers,
        { s.ran (pollEvents c s.attempt answers) with
          bf := flagAfter s.bf answers, attempt := s.attempt + answers.length, upc := u }) := by
  intro n
  induction n with
  | zero =>
    intro s
    exact ⟨[], s.upc, rfl, rfl, by simp [pollLoop, pollEvents, flagAfter, waitResultOf, State.ran, Pins.replay]⟩
  | succ n ih =>
    intro s
    obtain ⟨a, ha⟩ : ∃ a, a = readBusyAnswer c o s.trace := ⟨_, rfl⟩
    have hans1 : answeredBy o s.trace (readBusyEvents c a.1 a.2) = true := ha ▸ readBusyAnswer_answered c o s.trace
    cases hb : busyFlagOf a.1 with
    | true =>
      obtain ⟨rest, u, hw, hans, hrun⟩ := ih
        { s.ran (readBusyEvents c a.1 a.2 ++ pollDelay c (s.attempt + 1)) with
          bf := some true, attempt := s.attempt + 1, upc := 1 }
      refine ⟨a :: rest, u, by simpa [isWaitOf, hb] using hw, ?_, ?_⟩
      · have hd : answeredBy o (s.trace ++ readBusyEvents c a.1 a.2) (pollDelay c (s.attempt + 1)) = true := by
          unfold pollDelay; split <;> simp [answeredBy]
        simp only [pollEvents, hb, if_true, answeredBy_append, hans1, hd, Bool.true_and]
        simpa [List.append_assoc] using hans
      · rw [pollLoop_busy c o n s ha hb, hrun, waitResultOf_busy hb, flagAfter_cons, hb]
        simp [pollEvents, hb, State.ran, Pins.replay_append, Nat.add_assoc, Nat.add_comm 1]
    | false =>
      refine ⟨[a], s.upc + 3, by simp [isWaitOf, hb], by simpa [pollEvents, hb] using hans1, ?_⟩
      rw [pollLoop_ready c o n s ha hb]
      simp [waitResultOf, hb, pollEvents, flagAfter]

/-- WAIT_READY (R120). -/
theorem waitReady_spec (c : Cfg) (o : Oracle) (s : State) : ∃ (answers : List Answer) (u : Nat),
    isWaitOf c.nPollMax answers = true ∧ answeredBy o s.trace (waitEvents c answers) = true ∧
    waitReady c o s = (waitResultOf answers, ((s.ran (waitEvents c answers)).polled answers).goto u) := by
  obtain ⟨answers, u, hw, hans, hrun⟩ := pollLoop_spec c o c.nPollMax { s with attempt := 0 }.tick
  refine ⟨answers, u, hw, hans, ?_⟩
  rw [waitReady, hrun]
  simp [State.ran, State.polled, State.goto, State.tick, waitEvents]

/-- A busy wait and then a byte, the shape of WRITE_COMMAND and WRITE_CHAR (R124, R127). -/
theorem waitThenByte_spec (c : Cfg) (o : Oracle) (b : Byte) (m : Mode) (s : State) : ∃ answers : List Answer,
    isWaitOf c.nPollMax answers = true ∧ answeredBy o s.trace (waitEvents c answers ++ byteEvents c b m) = true ∧
    (s.call fun t => (waitReady c o t).2).call (sendByte c b m) =
      ((s.ran (waitEvents c answers ++ byteEvents c b m)).polled answers).goto (s.upc + 2) := by
  obtain ⟨answers, u, hw, hans, hrun⟩ := waitReady_spec c o (s.goto 0)
  refine ⟨answers, hw, ?_, ?_⟩
  · have hb : ∀ before, answeredBy o before (byteEvents c b m) = true := by
      intro before; cases m <;> simp [answeredBy, byteEvents, writeCycle, drive, levelOf]
    rw [answeredBy_append, hb, Bool.and_true]
    exact hans
  · simp only [State.call, hrun, sendByte_eq, State.ran_append]
    rfl

theorem writeCommand_spec (c : Cfg) (o : Oracle) (cmd : Byte) (s : State) : ∃ answers : List Answer,
    isWaitOf c.nPollMax answers = true ∧ answeredBy o s.trace (commandEvents c answers cmd) = true ∧
    writeCommand c o cmd s = ((s.ran (commandEvents c answers cmd)).polled answers).goto (s.upc + 2) :=
  waitThenByte_spec c o cmd .command s

theorem writeChar_spec (c : Cfg) (o : Oracle) (ch : Byte) (s : State) : ∃ answers : List Answer,
    isWaitOf c.nPollMax answers = true ∧
    answeredBy o s.trace (waitEvents c answers ++ byteEvents c ch .data) = true ∧
    writeChar c o ch s =
      ((s.ran (waitEvents c answers ++ byteEvents c ch .data)).polled answers).goto (s.upc + 2) :=
  waitThenByte_spec c o ch .data s

/-- `call WRITE_COMMAND` from any state: one micro-step of the caller. -/
theorem callCommand_spec (c : Cfg) (o : Oracle) (cmd : Byte) (s : State) : ∃ answers : List Answer,
    isWaitOf c.nPollMax answers = true ∧ answeredBy o s.trace (commandEvents c answers cmd) = true ∧
    s.call (writeCommand c o cmd) = ((s.ran (commandEvents c answers cmd)).polled answers).goto (s.upc + 1) := by
  obtain ⟨answers, hw, hans, hrun⟩ := writeCommand_spec c o cmd (s.goto 0)
  exact ⟨answers, hw, hans, by rw [State.call, hrun]; rfl⟩

theorem boot02_eq (c : Cfg) (s : State) : boot02 c s = (s.ran (boot02Events c)).goto (s.upc + 1) := by
  unfold boot02 boot02Events
  cases c.boot02Form <;> simp only [State.call, sendByte_eq, sendNibble_eq] <;> rfl

theorem initBootstrap_eq (c : Cfg) (s : State) :
    initBootstrap c s = (s.ran (bootstrapEvents c)).goto (s.upc + 6) := by
  simp only [initBootstrap, State.call, sendNibble_eq, boot02_eq, State.emits_eq, bootstrapEvents, State.ran_append]
  rfl

/-- The events of micro-steps 16 to 20 of INIT, whose four waits read these answers (R140). -/
def configureEvents (c : Cfg) (w1 w2 w3 w4 : List Answer) : List PinEvent :=
  commandEvents c w1 c.cmdFunctionSet2Line ++ (commandEvents c w2 c.cmdDisplayOn ++ (commandEvents c w3 c.cmdClear ++
    ([.delayMs c.dClearExtraMs] ++ commandEvents c w4 c.cmdEntryModeLtr)))

theorem initEvents_eq (c : Cfg) (w1 w2 w3 w4 : List Answer) :
    initEvents c w1 w2 w3 w4 = (initSetup c ++ bootstrapEvents c) ++ configureEvents c w1 w2 w3 w4 := by
  simp only [initEvents, configureEvents, List.append_assoc]

/-- The configuration part of INIT: four commands, each behind its own wait. -/
theorem initConfigure_spec (c : Cfg) (o : Oracle) (s : State) : ∃ w1 w2 w3 w4 : List Answer,
    (isWaitOf c.nPollMax w1 = true ∧ isWaitOf c.nPollMax w2 = true ∧ isWaitOf c.nPollMax w3 = true ∧
      isWaitOf c.nPollMax w4 = true) ∧
    answeredBy o s.trace (configureEvents c w1 w2 w3 w4) = true ∧
    initConfigure c o s =
      { s.ran (configureEvents c w1 w2 w3 w4) with
        bf := flagAfter s.bf (w1 ++ w2 ++ w3 ++ w4), attempt := w4.length, upc := s.upc + 5 } := by
  obtain ⟨w1, hw1, ha1, h1⟩ := callCommand_spec c o c.cmdFunctionSet2Line s
  obtain ⟨t1, ht1⟩ : ∃ t, t = s.call (writeCommand c o c.cmdFunctionSet2Line) := ⟨_, rfl⟩
  rw [← ht1] at h1
  obtain ⟨w2, hw2, ha2, h2⟩ := callCommand_spec c o c.cmdDisplayOn t1
  obtain ⟨t2, ht2⟩ : ∃ t, t = t1.call (writeCommand c o c.cmdDisplayOn) := ⟨_, rfl⟩
  rw [← ht2] at h2
  obtain ⟨w3, hw3, ha3, h3⟩ := callCommand_spec c o c.cmdClear t2
  obtain ⟨t3, ht3⟩ : ∃ t, t = t2.call (writeCommand c o c.cmdClear) := ⟨_, rfl⟩
  rw [← ht3] at h3
  obtain ⟨w4, hw4, ha4, h4⟩ := callCommand_spec c o c.cmdEntryModeLtr (t3.emits [.delayMs c.dClearExtraMs])
  refine ⟨w1, w2, w3, w4, ⟨hw1, hw2, hw3, hw4⟩, ?_, ?_⟩
  · have hd : ∀ before, answeredBy o before [.delayMs c.dClearExtraMs] = true := by intro before; simp [answeredBy]
    subst h1 h2 h3
    simp only [State.emits_eq, State.goto_trace, State.ran_trace, State.polled_trace, List.append_assoc] at ha2 ha3 ha4
    simp only [configureEvents, answeredBy_append, List.append_assoc, ha1, ha2, ha3, ha4, hd, Bool.and_true]
  · rw [initConfigure, ← ht1, ← ht2, ← ht3, h4, State.emits_eq, h3, h2, h1]
    simp only [configureEvents, State.ran_append]
    simp [State.ran, State.polled, State.goto, flagAfter]

/-- INIT (R140): for the answers its four waits read, its events; it ends in READY. -/
theorem init_spec (c : Cfg) (o : Oracle) (s : State) : ∃ w1 w2 w3 w4 : List Answer,
    (isWaitOf c.nPollMax w1 = true ∧ isWaitOf c.nPollMax w2 = true ∧ isWaitOf c.nPollMax w3 = true ∧
      isWaitOf c.nPollMax w4 = true) ∧
    answeredBy o s.trace (initEvents c w1 w2 w3 w4) = true ∧
    init c o s =
      { s.ran (initEvents c w1 w2 w3 w4) with
        pstate := .ready, bf := flagAfter s.bf (w1 ++ w2 ++ w3 ++ w4), attempt := w4.length, upc := s.upc + 22 } := by
  obtain ⟨t, ht⟩ : ∃ t, t = initBootstrap c ({ s with pstate := .initializing }.tick.emits (initSetup c)) := ⟨_, rfl⟩
  obtain ⟨w1, w2, w3, w4, hw, hans, hrun⟩ := initConfigure_spec c o t
  have hi : init c o s = { initConfigure c o t with pstate := .ready }.tick := by rw [ht]; rfl
  rw [initBootstrap_eq, State.emits_eq] at ht
  refine ⟨w1, w2, w3, w4, hw, ?_, ?_⟩
  · have hb : ∀ before, answeredBy o before (initSetup c ++ bootstrapEvents c) = true := by
      intro before
      cases hf : c.boot02Form <;>
        simp [answeredBy, initSetup, bootstrapEvents, boot02Events, byteEvents, writeCycle, drive, levelOf, hf]
    rw [initEvents_eq, answeredBy_append, hb, Bool.true_and]
    simpa [ht, List.append_assoc] using hans
  · rw [hi, hrun, ht, initEvents_eq]
    simp only [State.ran_append]
    simp [State.ran, State.goto, State.tick, initSetup]

end Sys2Proof.Machine
end

