-- ==== Sys2Proof/Laws/Port.lean ====
section
/-! SUPPORT. The command port around every operation alike: what an accepted word does, and when a word is accepted. -/

namespace Sys2Proof.Machine

/-- The operation of an instruction as one function: its result value and the state it leaves. -/
def operation (c : Cfg) (o : Oracle) : Instr → State → Result × State
  | .sendNibble value mode, s => (.done, sendNibble c value mode s)
  | .sendByte value mode, s => (.done, sendByte c value mode s)
  | .readBusy, s => (.busyFlag (readBusy c o s).1, (readBusy c o s).2)
  | .init, s => (.done, init c o s)
  | .waitReady, s => (.wait (waitReady c o s).1, (waitReady c o s).2)
  | .writeCommand cmd, s => (.done, writeCommand c o cmd s)
  | .writeChar ch, s => (.done, writeChar c o ch s)
  | .setCursor row col, s => (.cursor (setCursor c o row col s).1, (setCursor c o row col s).2)
  | .clear, s => (.done, clear c o s)

/-- Why the port does not accept an instruction, if it does not. -/
def portRefusal (i : Instr) (s : State) : Option Refusal :=
  if i = .init then refusalOfInit s else refusalOfOther s

/-- The states in which the port accepts an instruction. -/
def Accepts (i : Instr) (s : State) : Prop := if i = .init then s.AwaitingInit else s.Accepting

theorem execAt_eq (c : Cfg) (o : Oracle) (i : Instr) (s : State) :
    execAt c o i s = atPort (portRefusal i s) (operation c o i) s := by
  cases i <;> simp only [portRefusal, reduceCtorEq, if_false, if_true] <;> rfl

theorem portRefusal_eq_none_iff (i : Instr) (s : State) : portRefusal i s = none ↔ Accepts i s := by
  unfold portRefusal Accepts
  split
  · exact ⟨awaiting_of_refusalOfInit, refusalOfInit_awaiting⟩
  · exact ⟨accepting_of_refusalOfOther, refusalOfOther_accepting⟩

/-- An accepted instruction runs its operation to its return. -/
theorem execAt_accepted (c : Cfg) (o : Oracle) {i : Instr} {s : State} (h : Accepts i s) :
    execAt c o i s = .next ((operation c o i s).2.complete (operation c o i s).1) := by
  rw [execAt_eq, (portRefusal_eq_none_iff i s).2 h, atPort_none]

/-- An instruction answers a next state only where the port accepts it, and then that of its operation. -/
theorem execAt_next {c : Cfg} {o : Oracle} {i : Instr} {s t : State} (h : execAt c o i s = .next t) :
    Accepts i s ∧ t = (operation c o i s).2.complete (operation c o i s).1 := by
  rw [execAt_eq] at h
  obtain ⟨hn, ht⟩ := atPort_next h
  exact ⟨(portRefusal_eq_none_iff i s).1 hn, ht⟩

theorem Accepts.upc_eq_zero {i : Instr} {s : State} (h : Accepts i s) : s.upc = 0 := by
  unfold Accepts at h
  split at h <;> exact h.1

/-- A step from a state with a word waiting that decodes is the operation's outcome on the state with the word consumed. -/
theorem stepAt_cons (c : Cfg) (o : Oracle) {s : State} {w : CommandWord} {ws : List CommandWord} {i : Instr}
    (hs : s.commands = w :: ws) (hd : decode w = .ok i) : stepAt c o s = execAt c o i { s with commands := ws } := by
  simp [stepAt, nextCommand, hs, hd]

/-- What a step that answers a next state did: it idled, or it ran the operation of the first waiting word. -/
theorem stepAt_next {c : Cfg} {o : Oracle} {s t : State} (h : stepAt c o s = .next t) :
    s.commands = [] ∧ t = s ∨
    ∃ (w : CommandWord) (ws : List CommandWord) (i : Instr), s.commands = w :: ws ∧ decode w = .ok i ∧
      execAt c o i { s with commands := ws } = .next t := by
  cases hc : s.commands with
  | nil => exact .inl ⟨rfl, by simpa [stepAt, nextCommand, hc, idle] using h.symm⟩
  | cons w ws =>
    cases hd : decode w with
    | error e => simp [stepAt, nextCommand, hc, hd] at h
    | ok i => exact .inr ⟨w, ws, i, rfl, hd, by rwa [stepAt_cons c o hc hd] at h⟩

/-- What every operation but INIT does to latches and trace: it performs a list of events whose reads the oracle
answered, and leaves PSTATE and the model's own fields alone; INIT does the same and enters READY. -/
theorem operation_performs (c : Cfg) (o : Oracle) (i : Instr) (s : State) : ∃ evs : List PinEvent,
    answeredBy o s.trace evs = true ∧ (operation c o i s).2.trace = s.trace ++ evs ∧
    (operation c o i s).2.pins = s.pins.replay evs ∧
    (operation c o i s).2.pstate = (if i = .init then .ready else s.pstate) ∧
    (operation c o i s).2.commands = s.commands ∧ (operation c o i s).2.results = s.results := by
  cases i with
  | sendNibble v m =>
    refine ⟨writeCycle c v m, ?_, ?_⟩
    · cases m <;> simp [answeredBy, writeCycle, drive, levelOf]
    · simp [operation, sendNibble_eq]
  | sendByte v m =>
    refine ⟨byteEvents c v m, ?_, ?_⟩
    · cases m <;> simp [answeredBy, byteEvents, writeCycle, drive, levelOf]
    · simp [operation, sendByte_eq]
  | readBusy =>
    refine ⟨_, readBusyAnswer_answered c o s.trace, ?_⟩
    simp [operation, readBusy_eq]
  | init =>
    obtain ⟨w1, w2, w3, w4, -, hans, hrun⟩ := init_spec c o s
    exact ⟨_, hans, by simp [operation, hrun]⟩
  | waitReady =>
    obtain ⟨answers, u, -, hans, hrun⟩ := waitReady_spec c o s
    exact ⟨_, hans, by simp [operation, hrun]⟩
  | writeCommand cmd =>
    obtain ⟨answers, -, hans, hrun⟩ := writeCommand_spec c o cmd s
    exact ⟨_, hans, by simp [operation, hrun]⟩
  | writeChar ch =>
    obtain ⟨answers, -, hans, hrun⟩ := writeChar_spec c o ch s
    exact ⟨_, hans, by simp [operation, hrun]⟩
  | setCursor row col =>
    by_cases h : cursorInRange row col = true
    · obtain ⟨answers, -, hans, hrun⟩ := callCommand_spec c o (positioningByte c row col) s.tick.tick
      exact ⟨_, hans, by simp [operation, setCursor, h, hrun]⟩
    · exact ⟨[], rfl, by simp [operation, setCursor, h, Pins.replay]⟩
  | clear =>
    obtain ⟨answers, -, hans, hrun⟩ := callCommand_spec c o c.cmdClear s
    exact ⟨_, hans, by simp [operation, clear, hrun]⟩

end Sys2Proof.Machine
end

