-- ==== Sys2Proof/Laws/Results.lean ====
section
/-! SUPPORT. The events of each operation replayed on the latches: the state an operation leaves, written out. -/

namespace Sys2Proof.Machine

theorem State.ran_writeCycle (s : State) (c : Cfg) (v : Nibble) (m : Mode) :
    s.ran (writeCycle c v m) = s.afterNibble c v m := by
  cases m <;> rfl

theorem State.ran_byteEvents (s : State) (c : Cfg) (b : Byte) (m : Mode) :
    s.ran (byteEvents c b m) = s.afterByte c b m := by
  cases m <;> rfl

theorem State.ran_readBusyEvents (s : State) (c : Cfg) (n1 n2 : Nibble) :
    { s.ran (readBusyEvents c n1 n2) with bf := some (busyFlagOf n1) } = s.afterRead c n1 n2 := rfl

/-- The latches after one or more polls: those of R105, DB_OUT kept. -/
def Pins.restored (p : Pins) : Pins :=
  { p with e := some .deasserted, rs := some .deasserted, rw := some .deasserted, dir := some .output }

theorem Pins.replay_readBusyEvents (p : Pins) (c : Cfg) (n1 n2 : Nibble) :
    p.replay (readBusyEvents c n1 n2) = p.restored := rfl

theorem Pins.replay_pollDelay (p : Pins) (c : Cfg) (k : Nat) : p.replay (pollDelay c k) = p := by
  unfold pollDelay; split <;> rfl

theorem Pins.replay_pollEvents (c : Cfg) (answers : List Answer) :
    ∀ (p : Pins) (k : Nat), answers ≠ [] → p.replay (pollEvents c k answers) = p.restored := by
  induction answers with
  | nil => intro _ _ h; exact absurd rfl h
  | cons a rest ih =>
    intro p k _
    simp only [pollEvents, Pins.replay_append, Pins.replay_readBusyEvents]
    have hd : ∀ q : Pins, q.replay (if busyFlagOf a.1 = true then pollDelay c (k + 1) else []) = q := by
      intro q; split
      · exact Pins.replay_pollDelay q c (k + 1)
      · rfl
    rw [hd]
    by_cases hr : rest = []
    · subst hr; rfl
    · rw [ih _ _ hr]; rfl

theorem isWaitOf_ne_nil {n : Nat} {answers : List Answer} (hn : 1 ≤ n) (h : isWaitOf n answers = true) :
    answers ≠ [] := by
  rintro rfl
  cases n with
  | zero => omega
  | succ n => simp [isWaitOf] at h

theorem isWaitOf_length_le : ∀ {n : Nat} {answers : List Answer}, isWaitOf n answers = true → answers.length ≤ n
  | 0, answers, h => by simp [isWaitOf] at h; simp [h]
  | n + 1, [], _ => by simp
  | n + 1, a :: rest, h => by
    unfold isWaitOf at h
    split at h
    · have := isWaitOf_length_le h
      simpa using this
    · simp at h
      simp [h]

/-- The last flag of a wait says how it ended (R120): 0 after READY, 1 after EXHAUSTED. -/
theorem flagAfter_wait : ∀ {n : Nat} {answers : List Answer} (old : Option Bool),
    isWaitOf n answers = true → answers ≠ [] → flagAfter old answers = some (waitResultOf answers == .exhausted)
  | 0, answers, _, h, hne => by simp [isWaitOf] at h; exact absurd h hne
  | n + 1, [], _, _, hne => absurd rfl hne
  | n + 1, a :: rest, old, h, _ => by
    unfold isWaitOf at h
    split at h
    · next hb =>
      rw [flagAfter_cons, waitResultOf_busy hb, hb]
      cases n with
      | zero => simp [isWaitOf] at h; subst h; simp [flagAfter, waitResultOf]
      | succ n => exact flagAfter_wait _ h (isWaitOf_ne_nil (by omega) h)
    · next hb =>
      simp at h; subst h
      simp [flagAfter, waitResultOf, hb]

theorem State.ran_waitEvents (s : State) (c : Cfg) {n : Nat} {answers : List Answer} (h : isWaitOf n answers = true)
    (hne : answers ≠ []) : (s.ran (waitEvents c answers)).polled answers = s.afterWait c answers := by
  simp only [State.ran, State.polled, State.afterWait, waitEvents, Pins.replay_pollEvents c answers _ _ hne,
    flagAfter_wait s.bf h hne]
  rfl

/-- A wait and then a byte, written out. -/
theorem State.ran_waitThenByte (s : State) (c : Cfg) {n : Nat} {answers : List Answer} (b : Byte) (m : Mode)
    (h : isWaitOf n answers = true) (hne : answers ≠ []) :
    (s.ran (waitEvents c answers ++ byteEvents c b m)).polled answers =
      (s.afterWait c answers).afterByte c b m := by
  rw [← State.ran_waitEvents s c h hne, ← State.ran_byteEvents, State.ran_append]
  rfl

/-- What a device answers a wait is determined: two answer lists of one wait that fit the same oracle at the same point
are the same. -/
theorem answers_unique (c : Cfg) (o : Oracle) : ∀ (n k : Nat) (tr : List PinEvent) (a b : List Answer),
    isWaitOf n a = true → isWaitOf n b = true → answeredBy o tr (pollEvents c k a) = true →
    answeredBy o tr (pollEvents c k b) = true → a = b
  | 0, k, tr, a, b, ha, hb, _, _ => by simp [isWaitOf] at ha hb; simp [ha, hb]
  | n + 1, k, tr, [], b, ha, hb, _, _ => by simp [isWaitOf] at ha
  | n + 1, k, tr, _, [], ha, hb, _, _ => by simp [isWaitOf] at hb
  | n + 1, k, tr, x :: xs, y :: ys, ha, hb, h1, h2 => by
    simp only [pollEvents, answeredBy_append, Bool.and_eq_true] at h1 h2
    have e1 := h1.1
    have e2 := h2.1
    simp [readBusyEvents, readPulseEvents, readPulseOpen, readPulseClose, answeredBy] at e1 e2
    have f1 : x.1 = y.1 := by rw [e1.1, e2.1]
    obtain rfl : x = y := Prod.ext f1 (by rw [e1.2, e2.2, f1])
    congr 1
    unfold isWaitOf at ha hb
    split at ha
    · next hx =>
      simp only [hx, if_true] at hb h1 h2
      exact answers_unique c o n (k + 1) _ xs ys ha hb h1.2.2 h2.2.2
    · next hx =>
      simp [hx] at ha hb
      simp [ha, hb]

theorem Config.one_le_nPollMax : 1 ≤ Config.cfg.nPollMax := by simp [Config.cfg, Cfg.toAdmissible]

end Sys2Proof.Machine
end

