-- ==== Sys2Proof/Laws/Blocks.lean ====
section
/-! SUPPORT. Every operation's events are made of write nibble cycles, busy-flag reads and delays, and for INIT the pin
set-up before them: what is shown of these pieces from the state at rest is shown of every operation. -/

namespace Sys2Proof.Machine

/-- A list of events made of whole write nibble cycles (R100), whole busy-flag reads (R104) and delays. -/
inductive Blocks (c : Cfg) : List PinEvent → Prop where
  | nil : Blocks c []
  | write (v : Nibble) (m : Mode) {evs : List PinEvent} : Blocks c evs → Blocks c (writeCycle c v m ++ evs)
  | read (n1 n2 : Nibble) {evs : List PinEvent} : Blocks c evs → Blocks c (readBusyEvents c n1 n2 ++ evs)
  | delayUs (n : Nat) {evs : List PinEvent} : Blocks c evs → Blocks c ([.delayUs n] ++ evs)
  | delayMs (n : Nat) {evs : List PinEvent} : Blocks c evs → Blocks c ([.delayMs n] ++ evs)

theorem Blocks.append {c : Cfg} {a b : List PinEvent} (ha : Blocks c a) (hb : Blocks c b) : Blocks c (a ++ b) := by
  induction ha with
  | nil => exact hb
  | write v m _ ih => rw [List.append_assoc]; exact ih.write v m
  | read n1 n2 _ ih => rw [List.append_assoc]; exact ih.read n1 n2
  | delayUs n _ ih => rw [List.append_assoc]; exact ih.delayUs n
  | delayMs n _ ih => rw [List.append_assoc]; exact ih.delayMs n

theorem blocks_byteEvents (c : Cfg) (b : Byte) (m : Mode) : Blocks c (byteEvents c b m) := by
  have h := (Blocks.nil (c := c)).write (lo b) m
  rw [List.append_nil] at h
  exact h.write (hi b) m

theorem blocks_pollEvents (c : Cfg) (answers : List Answer) : ∀ k, Blocks c (pollEvents c k answers) := by
  induction answers with
  | nil => intro _; exact .nil
  | cons a rest ih =>
    intro k
    refine Blocks.read a.1 a.2 ?_
    split
    · unfold pollDelay
      split
      · exact (ih (k + 1)).delayUs c.dPollUs
      · exact ih (k + 1)
    · exact ih (k + 1)

theorem blocks_commandEvents (c : Cfg) (answers : List Answer) (cmd : Byte) : Blocks c (commandEvents c answers cmd) :=
  (blocks_pollEvents c answers 0).append (blocks_byteEvents c cmd .command)

theorem blocks_boot02Events (c : Cfg) : Blocks c (boot02Events c) := by
  unfold boot02Events
  split
  · exact blocks_byteEvents c _ _
  · have h := (Blocks.nil (c := c)).write 0x2#4 .command
    rwa [List.append_nil] at h

theorem blocks_delayUs (c : Cfg) (n : Nat) : Blocks c [.delayUs n] := (Blocks.nil (c := c)).delayUs n

theorem blocks_bootstrapEvents (c : Cfg) : Blocks c (bootstrapEvents c) := by
  have h := (Blocks.nil (c := c)).write 0x3#4 .command
  rw [List.append_nil] at h
  exact ((((h.append (blocks_delayUs c _)).append (blocks_boot02Events c)).append (blocks_delayUs c _)).append
    (blocks_boot02Events c)).append (blocks_delayUs c _)

theorem blocks_configureEvents (c : Cfg) (w1 w2 w3 w4 : List Answer) : Blocks c (configureEvents c w1 w2 w3 w4) :=
  (blocks_commandEvents c w1 _).append ((blocks_commandEvents c w2 _).append ((blocks_commandEvents c w3 _).append
    ((blocks_commandEvents c w4 _).delayMs c.dClearExtraMs)))

/-- The events of an operation: the pin set-up first where it is INIT, then whole cycles, reads and delays. -/
def IsOperationEvents (c : Cfg) (i : Instr) (evs : List PinEvent) : Prop :=
  if i = .init then ∃ rest, Blocks c rest ∧ evs = initSetup c ++ rest else Blocks c evs

/-- What every operation does to latches and trace, with the shape of its events. -/
theorem operation_performs_blocks (c : Cfg) (o : Oracle) (i : Instr) (s : State) : ∃ evs : List PinEvent,
    IsOperationEvents c i evs ∧ answeredBy o s.trace evs = true ∧ (operation c o i s).2.trace = s.trace ++ evs ∧
    (operation c o i s).2.pins = s.pins.replay evs := by
  cases i with
  | sendNibble v m =>
    have h := (Blocks.nil (c := c)).write v m
    rw [List.append_nil] at h
    refine ⟨writeCycle c v m, h, ?_, ?_⟩
    · cases m <;> simp [answeredBy, writeCycle, drive, levelOf]
    · simp [operation, sendNibble_eq]
  | sendByte v m =>
    refine ⟨byteEvents c v m, blocks_byteEvents c v m, ?_, ?_⟩
    · cases m <;> simp [answeredBy, byteEvents, writeCycle, drive, levelOf]
    · simp [operation, sendByte_eq]
  | readBusy =>
    have h := (Blocks.nil (c := c)).read (readBusyAnswer c o s.trace).1 (readBusyAnswer c o s.trace).2
    rw [List.append_nil] at h
    exact ⟨_, h, readBusyAnswer_answered c o s.trace, by simp [operation, readBusy_eq]⟩
  | init =>
    obtain ⟨w1, w2, w3, w4, -, hans, hrun⟩ := init_spec c o s
    refine ⟨_, ⟨bootstrapEvents c ++ configureEvents c w1 w2 w3 w4,
      (blocks_bootstrapEvents c).append (blocks_configureEvents c w1 w2 w3 w4), ?_⟩, hans, by simp [operation, hrun]⟩
    rw [initEvents_eq, List.append_assoc]
  | waitReady =>
    obtain ⟨answers, u, -, hans, hrun⟩ := waitReady_spec c o s
    exact ⟨_, blocks_pollEvents c answers 0, hans, by simp [operation, hrun, waitEvents]⟩
  | writeCommand cmd =>
    obtain ⟨answers, -, hans, hrun⟩ := writeCommand_spec c o cmd s
    exact ⟨_, blocks_commandEvents c answers cmd, hans, by simp [operation, hrun]⟩
  | writeChar ch =>
    obtain ⟨answers, -, hans, hrun⟩ := writeChar_spec c o ch s
    exact ⟨_, (blocks_pollEvents c answers 0).append (blocks_byteEvents c ch .data), hans,
      by simp [operation, hrun, waitEvents]⟩
  | setCursor row col =>
    by_cases h : cursorInRange row col = true
    · obtain ⟨answers, -, hans, hrun⟩ := callCommand_spec c o (positioningByte c row col) s.tick.tick
      exact ⟨_, blocks_commandEvents c answers _, hans, by simp [operation, setCursor, h, hrun]⟩
    · exact ⟨[], .nil, rfl, by simp [operation, setCursor, h, Pins.replay]⟩
  | clear =>
    obtain ⟨answers, -, hans, hrun⟩ := callCommand_spec c o c.cmdClear s
    exact ⟨_, blocks_commandEvents c answers _, hans, by simp [operation, clear, hrun]⟩

/-! ### The pieces and the state at rest -/

theorem Pins.AtRest.writeCycle {p : Pins} (h : p.AtRest) (c : Cfg) (v : Nibble) (m : Mode) :
    (p.replay (writeCycle c v m)).AtRest := by
  obtain ⟨-, h2, h3, h4, h5, h6, h7⟩ := h
  cases m <;> exact ⟨rfl, h2, h3, h4, h5, h6, h7⟩

theorem Pins.AtRest.readBusyEvents {p : Pins} (h : p.AtRest) (c : Cfg) (n1 n2 : Nibble) :
    (p.replay (readBusyEvents c n1 n2)).AtRest := by
  obtain ⟨-, -, -, h4, h5, h6, h7⟩ := h
  exact ⟨rfl, rfl, rfl, h4, h5, h6, h7⟩

theorem Pins.atRest_initSetup (p : Pins) (c : Cfg) : (p.replay (initSetup c)).AtRest :=
  ⟨rfl, rfl, rfl, rfl, rfl, rfl, rfl⟩

theorem Pins.AtRest.blocks {c : Cfg} {evs : List PinEvent} (hb : Blocks c evs) :
    ∀ {p : Pins}, p.AtRest → (p.replay evs).AtRest := by
  induction hb with
  | nil => exact fun h => h
  | write v m _ ih => intro p h; rw [Pins.replay_append]; exact ih (h.writeCycle c v m)
  | read n1 n2 _ ih => intro p h; rw [Pins.replay_append]; exact ih (h.readBusyEvents c n1 n2)
  | delayUs n _ ih => intro p h; rw [Pins.replay_append]; exact ih h
  | delayMs n _ ih => intro p h; rw [Pins.replay_append]; exact ih h

/-! ### The pieces and the turn of the bus (R105) -/

/-- Only SetDir(INPUT) and Assert(RW) turn the bus for reading. -/
theorem Pins.Outward.apply {p : Pins} (h : p.Outward) {ev : PinEvent} (hev : ev ≠ .setDir .input ∧ ev ≠ .assert .rw) :
    (p.apply ev).Outward := by
  obtain ⟨h1, h2⟩ := h
  cases ev with
  | setDir d => cases d <;> simp_all [Pins.Outward, Pins.apply]
  | assert l => cases l <;> simp_all [Pins.Outward, Pins.apply, Pins.setLine]
  | deassert l => cases l <;> simp_all [Pins.Outward, Pins.apply, Pins.setLine]
  | cfgCtlOut l => cases l <;> simp_all [Pins.Outward, Pins.apply, Pins.configure]
  | _ => simp_all [Pins.Outward, Pins.apply]

theorem Pins.Outward.replay : ∀ {evs : List PinEvent} {p : Pins}, p.Outward →
    (∀ ev ∈ evs, ev ≠ .setDir .input ∧ ev ≠ .assert .rw) → (p.replay evs).Outward
  | [], _, h, _ => h
  | ev :: evs, _, h, hev =>
    Pins.Outward.replay (evs := evs) (h.apply (hev ev List.mem_cons_self)) fun x hx => hev x (List.mem_cons_of_mem ev hx)

/-- After a whole READ_BUSY the bus is turned outward again, whatever it was (R105). -/
theorem Pins.outward_readBusyEvents (p : Pins) (c : Cfg) (n1 n2 : Nibble) : (p.replay (readBusyEvents c n1 n2)).Outward := by
  rw [Pins.replay_readBusyEvents]
  exact ⟨by simp [Pins.restored], by simp [Pins.restored]⟩

theorem InputOnlyInReads.nil (c : Cfg) (p : Pins) : InputOnlyInReads c p [] :=
  ⟨[], rfl, by simp, fun h => h, by simp⟩

/-- One more piece in front. -/
theorem InputOnlyInReads.append {c : Cfg} {p : Pins} {a b : List PinEvent}
    (ha : (∃ n1 n2, a = readBusyEvents c n1 n2) ∨ ∀ ev ∈ a, ev ≠ .setDir .input ∧ ev ≠ .assert .rw)
    (hb : InputOnlyInReads c (p.replay a) b) : InputOnlyInReads c p (a ++ b) := by
  obtain ⟨parts, rfl, h1, h2, h3⟩ := hb
  have hout : p.Outward → (p.replay a).Outward := by
    intro h
    rcases ha with ⟨n1, n2, rfl⟩ | ha
    · exact p.outward_readBusyEvents c n1 n2
    · exact h.replay ha
  refine ⟨a :: parts, rfl, List.forall_mem_cons.2 ⟨ha, h1⟩,
    fun h => by rw [Pins.replay_append]; exact h2 (hout h), ?_⟩
  intro h pre part post he
  cases pre with
  | nil =>
    obtain ⟨rfl, -⟩ := List.cons.inj he
    exact ha.imp id fun ha k _ => h.replay fun x hx => ha x (List.mem_of_mem_take hx)
  | cons x pre =>
    obtain ⟨rfl, hparts⟩ := List.cons.inj he
    refine (h3 (hout h) pre part post hparts).imp id fun h k hk => ?_
    simpa [Pins.replay_append] using h k hk

/-- The events of WRITE_STRING are whole cycles, reads and delays too (R130). -/
theorem writeString_performs_blocks (c : Cfg) (o : Oracle) (bytes : List Byte) (s : State) :
    ∃ evs : List PinEvent, Blocks c evs ∧ (writeString c o bytes s).trace = s.trace ++ evs := by
  have loop : ∀ (bs : List Byte) (u : State), ∃ evs, Blocks c evs ∧ (stringLoop c o bs u).trace = u.trace ++ evs := by
    intro bs
    induction bs with
    | nil => exact fun u => ⟨[], .nil, by simp [stringLoop]⟩
    | cons b bs ih =>
      intro u
      obtain ⟨answers, -, -, hrun⟩ := writeChar_spec c o b (u.tick.goto 0)
      obtain ⟨evs, hb, ht⟩ := ih ((u.tick.call (writeChar c o b)).tick.goto 1)
      refine ⟨(waitEvents c answers ++ byteEvents c b .data) ++ evs,
        ((blocks_pollEvents c answers 0).append (blocks_byteEvents c b .data)).append hb, ?_⟩
      rw [stringLoop, ht]
      simp [State.call, hrun]
  obtain ⟨evs, hb, ht⟩ := loop bytes s.tick
  exact ⟨evs, hb, by simpa [writeString] using ht⟩

end Sys2Proof.Machine
end

