-- ==== Sys2Proof/Machine/Text.lean ====
section
/-! DEFINITION. The textual form of the operations (spec/30_encoding.md R74, R75): one call a line in lower case, operands
decimal or `0x`, a character operand also as a quoted ASCII character, `mode` written COMMAND or DATA, and a double-quoted
string for `write_string`.
Texts are lists of characters. A text that is no well-formed call has no meaning (`none`). What R74 leaves open of the
text is a DESIGN CHOICE (log entry 12). -/

namespace Sys2Proof.Machine.Text

/-- The double quote, the single quote. -/
def doubleQuote : Char := Char.ofNat 34
def singleQuote : Char := Char.ofNat 39

/-- The lower-case names of the calls, in the order of the table of R74, then the pseudo-operation of R75. -/
def nameSendNibble : List Char := ['s', 'e', 'n', 'd', '_', 'n', 'i', 'b', 'b', 'l', 'e']
def nameSendByte : List Char := ['s', 'e', 'n', 'd', '_', 'b', 'y', 't', 'e']
def nameReadBusy : List Char := ['r', 'e', 'a', 'd', '_', 'b', 'u', 's', 'y']
def nameInit : List Char := ['i', 'n', 'i', 't']
def nameWaitReady : List Char := ['w', 'a', 'i', 't', '_', 'r', 'e', 'a', 'd', 'y']
def nameWriteCommand : List Char := ['w', 'r', 'i', 't', 'e', '_', 'c', 'o', 'm', 'm', 'a', 'n', 'd']
def nameWriteChar : List Char := ['w', 'r', 'i', 't', 'e', '_', 'c', 'h', 'a', 'r']
def nameSetCursor : List Char := ['s', 'e', 't', '_', 'c', 'u', 'r', 's', 'o', 'r']
def nameClear : List Char := ['c', 'l', 'e', 'a', 'r']
def nameWriteString : List Char := ['w', 'r', 'i', 't', 'e', '_', 's', 't', 'r', 'i', 'n', 'g']

/-- `mode` is written `COMMAND` or `DATA` (R74). -/
def modeText : Mode → List Char
  | .command => ['C', 'O', 'M', 'M', 'A', 'N', 'D']
  | .data => ['D', 'A', 'T', 'A']

/-- A digit of a number in base 10 or 16; both cases of the letters. -/
def digitValue (base : Nat) (c : Char) : Option Nat :=
  let n := c.toNat
  let v := if 48 ≤ n ∧ n ≤ 57 then n - 48
    else if 65 ≤ n ∧ n ≤ 70 then n - 55
    else if 97 ≤ n ∧ n ≤ 102 then n - 87
    else base
  if v < base then some v else none

/-- The value of a list of digits, most significant first, after `acc`. -/
def digitsValue (base acc : Nat) : List Char → Option Nat
  | [] => some acc
  | c :: cs => (digitValue base c).bind fun d => digitsValue base (acc * base + d) cs

/-- A numeric operand: decimal, or `0x` and hexadecimal digits (R74). -/
def parseNumber : List Char → Option Nat
  | [] => none
  | [c] => digitsValue 10 0 [c]
  | c :: d :: rest =>
    if c = '0' ∧ d = 'x' then
      if rest.isEmpty then none else digitsValue 16 0 rest
    else digitsValue 10 0 (c :: d :: rest)

/-- A character operand: a number, or one ASCII character in single quotes (R74). The operand of `write_char` alone is
read so; R74 does not say which operands are character operands (DESIGN CHOICE, log entry 12). -/
def parseCharacter : List Char → Option Nat
  | [] => none
  | c :: rest =>
    if c = singleQuote then
      match rest with
      | [d, e] => if e = singleQuote ∧ d.toNat < 128 then some d.toNat else none
      | _ => none
    else parseNumber (c :: rest)

/-- A mode operand (R74). -/
def parseMode (t : List Char) : Option Mode :=
  if t = modeText .command then some .command
  else if t = modeText .data then some .data
  else none

/-- The text up to the first `stop` and the text after it; nothing if there is no `stop`. -/
def splitFirst (stop : Char) : List Char → Option (List Char × List Char)
  | [] => none
  | c :: cs => if c = stop then some ([], cs) else (splitFirst stop cs).map fun r => (c :: r.1, r.2)

/-- The text without the spaces around it. -/
def trim (t : List Char) : List Char :=
  ((t.dropWhile (· = ' ')).reverse.dropWhile (· = ' ')).reverse

/-- The operands between the parentheses: the first, and the second if a comma follows the first. A comma inside quotes
is a character and no separator. -/
def parseOperands (t : List Char) : List Char × Option (List Char) :=
  let split (x : List Char) : List Char × Option (List Char) :=
    match splitFirst ',' x with
    | none => (trim x, none)
    | some (y, z) => (trim y, some (trim z))
  match trim t with
  | p :: q :: r :: rest =>
    if p = singleQuote ∧ r = singleQuote then
      match split rest with
      | (between, second) => ([p, q, r] ++ between, second)
    else split (p :: q :: r :: rest)
  | short => split short

/-- A call with no operand. -/
def parse0 (c : Call) (inside : List Char) : Option Call := if trim inside = [] then some c else none

/-- A call with one operand, read by `operand`. -/
def parse1 (operand : List Char → Option Nat) (mk : Nat → Call) (inside : List Char) : Option Call :=
  match parseOperands inside with
  | (x, none) => (operand x).map mk
  | (_, some _) => none

/-- A call with a numeric operand and a mode. -/
def parseM (mk : Nat → Mode → Call) (inside : List Char) : Option Call :=
  match parseOperands inside with
  | (_, none) => none
  | (x, some y) => (parseNumber x).bind fun n => (parseMode y).map (mk n)

/-- A call with two numeric operands. -/
def parse2 (mk : Nat → Nat → Call) (inside : List Char) : Option Call :=
  match parseOperands inside with
  | (_, none) => none
  | (x, some y) => (parseNumber x).bind fun n => (parseNumber y).map (mk n)

/-- The operand of `write_string`: a double-quoted ASCII string, its bytes unchanged (R69, R75). -/
def parseString (inside : List Char) : Option Call :=
  match trim inside with
  | [] => none
  | c :: rest =>
    if c ≠ doubleQuote then none
    else match splitFirst doubleQuote rest with
      | some (s, []) => if s.all (fun ch => ch.toNat < 128) then some (.writeString (s.map Char.toNat)) else none
      | _ => none

/-- The call a line of text is, its operands not yet checked against their widths. -/
def parseCall (line : List Char) : Option Call :=
  match splitFirst '(' (trim line) with
  | none => none
  | some (name, rest) =>
    match rest.reverse with
    | [] => none
    | last :: front =>
      if last ≠ ')' then none
      else
        let inside := front.reverse
        let n := trim name
        if n = nameSendNibble then parseM .sendNibble inside
        else if n = nameSendByte then parseM .sendByte inside
        else if n = nameReadBusy then parse0 .readBusy inside
        else if n = nameInit then parse0 .init inside
        else if n = nameWaitReady then parse0 .waitReady inside
        else if n = nameWriteCommand then parse1 parseNumber .writeCommand inside
        else if n = nameWriteChar then parse1 parseCharacter .writeChar inside
        else if n = nameSetCursor then parse2 .setCursor inside
        else if n = nameClear then parse0 .clear inside
        else if n = nameWriteString then parseString inside
        else none

/-- The command words a line stands for (R74): one word, or for `write_string` one word per byte (R75). -/
def assembleLine (line : List Char) : Option (List CommandWord) := (parseCall line).bind Call.words

/-- A program, one operation per line (R74). -/
def assemble : List (List Char) → Option (List CommandWord)
  | [] => some []
  | l :: ls => (assembleLine l).bind fun ws => (assemble ls).map (ws ++ ·)

/-- A hexadecimal digit. -/
def hexDigit (n : Nibble) : Char :=
  if n.toNat < 10 then Char.ofNat (48 + n.toNat) else Char.ofNat (55 + n.toNat)

/-- A nibble and a byte as `0x` operands. -/
def nibbleText (n : Nibble) : List Char := ['0', 'x', hexDigit n]
def byteText (b : Byte) : List Char := ['0', 'x', hexDigit (b.extractLsb' 4 4), hexDigit (b.extractLsb' 0 4)]

/-- A call's text from its name and its operands' texts. -/
def callText (name : List Char) : List (List Char) → List Char
  | [] => name ++ ['(', ')']
  | [x] => name ++ ['('] ++ x ++ [')']
  | x :: y :: _ => name ++ ['('] ++ x ++ [',', ' '] ++ y ++ [')']

/-- The textual form of an operation, with `0x` operands (R74). -/
def text : Instr → List Char
  | .sendNibble value mode => callText nameSendNibble [nibbleText value, modeText mode]
  | .sendByte value mode => callText nameSendByte [byteText value, modeText mode]
  | .readBusy => callText nameReadBusy []
  | .init => callText nameInit []
  | .waitReady => callText nameWaitReady []
  | .writeCommand cmd => callText nameWriteCommand [byteText cmd]
  | .writeChar c => callText nameWriteChar [byteText c]
  | .setCursor row col => callText nameSetCursor [byteText row, byteText col]
  | .clear => callText nameClear []

end Sys2Proof.Machine.Text
end

