-- ==== Sys2Proof/Certificates/Slice0/Obligations.lean ====
section
/-! DEFINITION. The statements for the provers, from the numbered rules of spec/. `exec` and `step` stand for the block
with the opaque `Config.cfg` and `Config.oracle`; `execAt` and `stepAt` are the same block for any configuration and any
device, and a statement that quantifies over `c` and `o` is about all of them (spec/40_pin_driver_primitives.md R84).
Every result statement gives the whole next state, and with it the frame. The two fields of the model's own are in it too
(log entries 4 and 5, the model's choice): `commands` stays as it is, and `results` grows by the value returned. -/

open Sys2Proof Sys2Proof.Machine

/-! ## Encodings -/

/-- Words written out bit by bit from the encodings of R61 and R62 decode to the operation they stand for, and words with
a must-be-zero bit set, or with an unlisted `op`, are rejected by name (95_test_vectors.md 2.1). -/
def Obligations.WrittenWordsDecode : Prop :=
  decode 0b00000001_0000_0011_0000000_0#24 = .ok (.sendNibble 3#4 .command) ∧
  decode 0b00000001_0000_1111_0000000_1#24 = .ok (.sendNibble 15#4 .data) ∧
  decode 0b00000010_01000001_0000000_1#24 = .ok (.sendByte 0x41#8 .data) ∧
  decode 0b00000011_00000000_00000000#24 = .ok .readBusy ∧
  decode 0b00010000_00000000_00000000#24 = .ok .init ∧
  decode 0b00010001_00000000_00000000#24 = .ok .waitReady ∧
  decode 0b00010010_00101000_00000000#24 = .ok (.writeCommand 0x28#8) ∧
  decode 0b00010011_01000001_00000000#24 = .ok (.writeChar 0x41#8) ∧
  decode 0b00010100_00000001_00000101#24 = .ok (.setCursor 1#8 5#8) ∧
  decode 0b00010101_00000000_00000000#24 = .ok .clear ∧
  decode 0b00000001_0001_0011_0000000_0#24 = .error .nibbleTooWide ∧
  decode 0b00000001_0000_0011_0000001_0#24 = .error .modeTooWide ∧
  decode 0b00010000_00000001_00000000#24 = .error .operandANotZero ∧
  decode 0b00010011_01000001_00000001#24 = .error .operandBNotZero ∧
  decode 0b00010110_00000000_00000000#24 = .error .unknownOp

/-- Decoding the word of any operation, with every operand at every value, gives the operation back. -/
def Obligations.DecodeEncodeRoundTrip : Prop := ∀ i : Instr, decode (encode i) = .ok i

/-- A word that decodes is the word of the operation it decodes to: no operation has a second word (R71: there are no
hint encodings; R73). -/
def Obligations.EncodeDecodeRoundTrip : Prop := ∀ (w : CommandWord) (i : Instr), decode w = .ok i → encode i = w

/-- R62: a word encodes the row's operation iff `w & mask = match`; the rows' match sets are disjoint; a word that no
row matches is no operation's; `op[7:4]` is 0 for the Signal Sequencer's operations and 1 for the Protocol
Controller's. -/
def Obligations.DecodeAgreesWithOpcodeTable : Prop :=
  (∀ (w : CommandWord) (r : OpcodeRow), r ∈ opcodeTable →
    (w &&& r.mask = r.pattern ↔ ∃ i : Instr, decode w = .ok i ∧ i.mnemonic = r.mnemonic)) ∧
  (∀ (w : CommandWord) (r r' : OpcodeRow), r ∈ opcodeTable → r' ∈ opcodeTable →
    w &&& r.mask = r.pattern → w &&& r'.mask = r'.pattern → r = r') ∧
  (∀ w : CommandWord, (∀ r ∈ opcodeTable, w &&& r.mask ≠ r.pattern) → ∃ e, decode w = .error e) ∧
  (∀ (w : CommandWord) (i : Instr), decode w = .ok i → w.op.extractLsb' 4 4 =
    (match i with
      | .sendNibble _ _ | .sendByte _ _ | .readBusy => 0#4
      | .init | .waitReady | .writeCommand _ | .writeChar _ | .setCursor _ _ | .clear => 1#4))

/-- R71: exactly the words it lists are illegal, and the machine refuses them as IllegalWord, in every state, whatever
the rest of the port holds. -/
def Obligations.IllegalWordsAreThoseOfTheRule : Prop :=
  (∀ w : CommandWord, (∃ e, decode w = .error e) ↔
    (w.op ∉ [0x01#8, 0x02#8, 0x03#8, 0x10#8, 0x11#8, 0x12#8, 0x13#8, 0x14#8, 0x15#8] ∨
      w.op ∈ [0x03#8, 0x10#8, 0x11#8, 0x15#8] ∧ (w.a ≠ 0#8 ∨ w.b ≠ 0#8) ∨
      w.op = 0x01#8 ∧ w.a.extractLsb' 4 4 ≠ 0#4 ∨
      w.op ∈ [0x01#8, 0x02#8] ∧ w.b.extractLsb' 1 7 ≠ 0#7 ∨
      w.op ∈ [0x12#8, 0x13#8] ∧ w.b ≠ 0#8)) ∧
  (∀ (w : CommandWord) (ws : List CommandWord) (e : DecodeError) (s : State), decode w = .error e →
    step { s with commands := w :: ws } = .refused .illegalWord) ∧
  (∀ row col : Byte, decode (assembleWord 0x14#8 row col) = .ok (.setCursor row col))

/-- The textual form of R74: the text of an operation assembles to its command word. -/
def Obligations.TextAssemblesToItsWord : Prop := ∀ i : Instr, Text.assembleLine (Text.text i) = some [encode i]

/-- R75: `write_string(s)` expands to the words of `write_char(s[0])`, `write_char(s[1])`, ... in that order, whatever
the bytes (an embedded zero too); the empty string expands to nothing. -/
def Obligations.StringExpandsToCharWords : Prop :=
  (∀ s : List Byte, (Call.writeString (s.map BitVec.toNat)).words = some (s.map fun b => encode (.writeChar b))) ∧
  (Call.writeString []).words = some []

/-! ## The command port and reset -/

/-- A step runs the decoded operation: with a word waiting that decodes to `i`, `step` is `exec i` on the state with that
word consumed; with no word waiting the block idles (R60, R30; the list of waiting words, and that a step with none answers
the state unchanged, are the model's choice, log entry 4). Nothing else is added around `exec`: an illegal word is
`IllegalWordsAreThoseOfTheRule`. -/
def Obligations.StepRunsDecodedOperation : Prop :=
  (∀ (s : State) (w : CommandWord) (ws : List CommandWord) (i : Instr), s.commands = w :: ws → decode w = .ok i →
    step s = exec i { s with commands := ws }) ∧
  (∀ s : State, s.commands = [] → step s = .next s)

/-- `exec` and `step` are the block of `execAt` and `stepAt` at `Config.cfg` and `Config.oracle` (R24). -/
def Obligations.ExecIsTheConfiguredBlock : Prop :=
  (∀ (i : Instr) (s : State), exec i s = execAt Config.cfg Config.oracle i s) ∧
  (∀ s : State, step s = stepAt Config.cfg Config.oracle s)

/-- R159: in UNINIT only INIT is accepted, in READY every operation except INIT, with the reasons it names; no accepted
operation leaves INITIALIZING to be seen at the port. -/
def Obligations.PortAcceptsByProtocolState : Prop :=
  ∀ (i : Instr) (s : State), s.upc = 0 →
    (s.pstate = .uninit → (i = .init → ∃ t, exec i s = .next t) ∧ (i ≠ .init → exec i s = .refused .notInitialised)) ∧
    (s.pstate = .ready → (i = .init → exec i s = .refused .alreadyInitialised) ∧ (i ≠ .init → ∃ t, exec i s = .next t)) ∧
    (∀ t, exec i s = .next t → t.pstate ≠ .initializing)

/-- A word that arrives while an operation is running is not accepted (R60, R160). That "running" is UPC not 0, or
PSTATE = INITIALIZING, and the reason's name, are the model's (log entry 7). -/
def Obligations.RunningBlockRefuses : Prop :=
  ∀ (i : Instr) (s : State), s.upc ≠ 0 ∨ s.pstate = .initializing → exec i s = .refused .operationRunning

/-- The configuration of the machine is admissible (R4), and every admissible configuration is a possible one: `toAdmissible`
leaves it as it is. -/
def Obligations.ConfigurationIsAdmissible : Prop :=
  Config.cfg.Admissible ∧ ∀ c : Cfg, c.Admissible → c.toAdmissible = c

/-- The reset state of R30, and that the only operation it accepts is INIT. The clause `step State.reset = .next
State.reset` is the model's choice (log entry 4): that no word waits at reset, and that a step with no word waiting answers
the state unchanged. R30 says only that "the block does nothing until a command word arrives". -/
def Obligations.ResetState : Prop :=
  State.reset.pstate = .uninit ∧ State.reset.pins.cfgData = false ∧ State.reset.pins.cfgE = false ∧
  State.reset.pins.cfgRs = false ∧ State.reset.pins.cfgRw = false ∧ State.reset.attempt = 0 ∧ State.reset.upc = 0 ∧
  State.reset.trace = [] ∧ State.reset.pins.dbOut = none ∧ State.reset.pins.e = none ∧ State.reset.pins.rs = none ∧
  State.reset.pins.rw = none ∧ State.reset.pins.dir = none ∧ State.reset.bf = none ∧
  step State.reset = .next State.reset ∧
  (∀ i : Instr, (∃ t, exec i State.reset = .next t) ↔ i = .init)

/-! ## Pin Driver events and operands -/

/-- What each event does to the latches, and that an emit applies it and appends the event to TRACE and does nothing
else (R80, R82 to R90). -/
def Obligations.PinEventEffects : Prop :=
  (∀ (s : State) (ev : PinEvent), s.emit ev = { s with pins := s.pins.apply ev, trace := s.trace ++ [ev] }) ∧
  (∀ p : Pins, p.apply .cfgDataOut = { p with cfgData := true, dir := some .output } ∧
    p.apply (.cfgCtlOut .e) = { p with cfgE := true } ∧ p.apply (.cfgCtlOut .rs) = { p with cfgRs := true } ∧
    p.apply (.cfgCtlOut .rw) = { p with cfgRw := true } ∧
    p.apply (.assert .e) = { p with e := some .asserted } ∧ p.apply (.assert .rs) = { p with rs := some .asserted } ∧
    p.apply (.assert .rw) = { p with rw := some .asserted } ∧
    p.apply (.deassert .e) = { p with e := some .deasserted } ∧
    p.apply (.deassert .rs) = { p with rs := some .deasserted } ∧
    p.apply (.deassert .rw) = { p with rw := some .deasserted } ∧
    (∀ v, p.apply (.setBus v) = { p with dbOut := some v }) ∧ (∀ v, p.apply (.readBus v) = p) ∧
    (∀ d, p.apply (.setDir d) = { p with dir := some d }) ∧ (∀ n, p.apply (.delayUs n) = p) ∧
    (∀ n, p.apply (.delayMs n) = p))

/-- R65: the nibble split and join, and `BF` as bit 7 of the status byte. -/
def Obligations.NibbleSplitAndJoin : Prop :=
  (∀ b : Byte, hi b = b.extractLsb' 4 4 ∧ lo b = b.extractLsb' 0 4 ∧ joinNibbles (hi b) (lo b) = b ∧
    b.toNat = (hi b).toNat * 16 + (lo b).toNat ∧ (hi b).toNat ≤ 15 ∧ (lo b).toNat ≤ 15 ∧
    ((b >>> 4) &&& 0xF#8).toNat = (hi b).toNat ∧ (b &&& 0xF#8).toNat = (lo b).toNat) ∧
  (∀ n1 n2 : Nibble, busyFlagOf n1 = n1.getLsbD 3 ∧ busyFlagOf n1 = (joinNibbles n1 n2).getLsbD 7)

/-- R136 and R42: under the guard the address does not wrap, fits in 7 bits and is one of the 78 of R42; it is
`(row << 6) | col`, and with an admissible base the OR is the sum. -/
def Obligations.CursorAddressArithmetic : Prop :=
  (∀ row col : Byte, cursorInRange row col = true ↔ row.toNat < 2 ∧ col.toNat < 0x27) ∧
  (∀ row col : Byte, cursorInRange row col = true →
    (cursorAddr row col).toNat = row.toNat * 0x40 + col.toNat ∧ (cursorAddr row col).toNat ≤ 0x66 ∧
    ((cursorAddr row col).toNat ≤ 0x26 ∨ 0x40 ≤ (cursorAddr row col).toNat) ∧
    cursorAddr row col = (row <<< 6) ||| col) ∧
  (∀ (c : Cfg) (row col : Byte), c.Admissible → cursorInRange row col = true →
    positioningByte c row col = c.cmdSetDdram ||| cursorAddr row col ∧
    (positioningByte c row col).toNat = c.cmdSetDdram.toNat + (cursorAddr row col).toNat)

/-! ## Signal Sequencer operations -/

/-- R100: SEND_NIBBLE completes in every accepting state, whatever the latches hold and whatever the device is doing,
with exactly its eight events, the latches it writes, and nothing else changed. -/
def Obligations.SendNibbleResult : Prop :=
  ∀ (value : Nibble) (mode : Mode) (s : State), s.Accepting →
    decode (assembleWord 0x01#8 (0#4 ++ value) (modeByte mode)) = .ok (.sendNibble value mode) ∧
    exec (.sendNibble value mode) s = .next ((s.afterNibble Config.cfg value mode).complete .done) ∧
    writeCycle Config.cfg value mode =
      [if mode = .data then .assert .rs else .deassert .rs, .setBus value, .deassert .e,
        .delayUs Config.cfg.dSetupUs, .assert .e, .delayUs Config.cfg.dPulseUs, .deassert .e,
        .delayUs Config.cfg.dSettleUs]

/-- R101: from the end of step 1 of a write nibble cycle until after step 7, `RS`, `RW` and `DB_OUT` are constant: the
value latched on either edge of the enable pulse is `value` with register select `(mode = DATA)`. -/
def Obligations.LatchedNibbleIsStable : Prop :=
  ∀ (c : Cfg) (p : Pins) (value : Nibble) (mode : Mode) (k : Nat), 2 ≤ k → k ≤ 8 →
    let q := p.replay ((writeCycle c value mode).take k)
    q.rs = some (levelOf mode) ∧ q.dbOut = some value ∧ q.rw = p.rw ∧ q.dir = p.dir ∧
    (q.e = some .asserted ↔ k = 5 ∨ k = 6 ∨ (k = 2 ∧ p.e = some .asserted))

/-- R102: SEND_BYTE is two nibble cycles, high nibble first, with nothing between them, and nothing else changed. -/
def Obligations.SendByteResult : Prop :=
  ∀ (value : Byte) (mode : Mode) (s : State), s.Accepting →
    decode (assembleWord 0x02#8 value (modeByte mode)) = .ok (.sendByte value mode) ∧
    exec (.sendByte value mode) s = .next ((s.afterByte Config.cfg value mode).complete .done) ∧
    byteEvents Config.cfg value mode =
      writeCycle Config.cfg (value.extractLsb' 4 4) mode ++ writeCycle Config.cfg (value.extractLsb' 0 4) mode ∧
    (byteEvents Config.cfg value mode).length = 16

/-- R104: READ_BUSY performs its 19 events around two reads, restores the bus on its one exit path, keeps DB_OUT, and
leaves and returns `BF = n1[3]`; the two answers are the oracle's, each at the point where it is read. -/
def Obligations.ReadBusyResult : Prop :=
  ∀ s : State, s.Accepting →
    decode (assembleWord 0x03#8 0#8 0#8) = .ok .readBusy ∧
    ∃ n1 n2 : Nibble, answeredBy Config.oracle s.trace (readBusyEvents Config.cfg n1 n2) = true ∧
      exec .readBusy s = .next ((s.afterRead Config.cfg n1 n2).complete (.busyFlag (busyFlagOf n1))) ∧
      (readBusyEvents Config.cfg n1 n2).length = 19

/-- R105: after READ_BUSY, for every configuration, oracle and start latches, the bus is restored; inside it DIR = INPUT
from step 0 to step 6 and RW is asserted from step 1 to step 5; and nowhere else, in no operation that has a word and not
in WRITE_STRING. -/
def Obligations.ReadBusyPostcondition : Prop :=
  (∀ (c : Cfg) (o : Oracle) (s t : State), execAt c o .readBusy s = .next t →
    t.pins.dir = some .output ∧ t.pins.rw = some .deasserted ∧ t.pins.e = some .deasserted ∧
    t.pins.rs = some .deasserted) ∧
  (∀ (c : Cfg) (p : Pins) (n1 n2 : Nibble) (k : Nat), p.Outward → k ≤ 19 →
    ((p.replay ((readBusyEvents c n1 n2).take k)).dir = some .input ↔ 1 ≤ k ∧ k ≤ 18) ∧
    ((p.replay ((readBusyEvents c n1 n2).take k)).rw = some .asserted ↔ 2 ≤ k ∧ k ≤ 17)) ∧
  (∀ (c : Cfg) (p : Pins) (n1 n2 : Nibble) (k : Nat), 2 ≤ k → k ≤ 17 →
    (p.replay ((readBusyEvents c n1 n2).take k)).dir = some .input ∧
    (p.replay ((readBusyEvents c n1 n2).take k)).rw = some .asserted) ∧
  (∀ (c : Cfg) (o : Oracle) (i : Instr) (s t : State), execAt c o i s = .next t →
    ∃ evs : List PinEvent, t.trace = s.trace ++ evs ∧ InputOnlyInReads c s.pins evs) ∧
  (∀ (c : Cfg) (o : Oracle) (bytes : List Byte) (s : State), ∃ evs : List PinEvent,
    (writeString c o bytes s).trace = s.trace ++ evs ∧ InputOnlyInReads c s.pins evs)

/-- The second nibble and bits 2..0 of the first have no influence on any state but TRACE (R28, R104): two devices whose
first answers have the same top bit leave the same latches, flag, counters and results. -/
def Obligations.OnlyTheTopBitOfAReadMatters : Prop :=
  ∀ (c : Cfg) (o o' : Oracle) (s t t' : State),
    (o (s.trace ++ ([.setDir .input, .assert .rw, .deassert .rs] ++ readPulseOpen c))).getLsbD 3 =
      (o' (s.trace ++ ([.setDir .input, .assert .rw, .deassert .rs] ++ readPulseOpen c))).getLsbD 3 →
    execAt c o .readBusy s = .next t → execAt c o' .readBusy s = .next t' →
    { t with trace := [] } = { t' with trace := [] }

/-- R106: event counts, delays, nominal durations and bus reads of the Signal Sequencer operations. -/
def Obligations.SequencerSizes : Prop :=
  ∀ (c : Cfg) (v n1 n2 : Nibble) (b : Byte) (m : Mode),
    let reads := fun evs : List PinEvent => evs.countP fun ev => match ev with | .readBus _ => true | _ => false
    let delays := fun evs : List PinEvent => evs.countP fun ev => match ev with | .delayUs _ => true | _ => false
    let sizes := fun evs : List PinEvent => (evs.length, delays evs, nominal evs, reads evs)
    sizes (writeCycle c v m) = (8, 3, pulseUs c, 0) ∧
    sizes (byteEvents c b m) = (16, 6, 2 * pulseUs c, 0) ∧
    sizes (readPulseEvents c n1) = (7, 3, pulseUs c, 1) ∧
    sizes (readBusyEvents c n1 n2) = (19, 6, 2 * pulseUs c, 2)

/-! ## Protocol Controller operations -/

/-- R120: WAIT_READY completes in every accepting state, with the events of at most N_POLL_MAX polls, the last of which
read ready or was the N_POLL_MAX-th; `BF`, `ATTEMPT` and the result are those of the answers read, and with `k` polls it
performs `19*k + (k-1)` events, one more if it is exhausted and POLL_DELAY_AFTER_LAST. -/
def Obligations.WaitReadyResult : Prop :=
  ∀ s : State, s.Accepting →
    decode (assembleWord 0x11#8 0#8 0#8) = .ok .waitReady ∧
    ∃ answers : List Answer, isWaitOf Config.cfg.nPollMax answers = true ∧
      answeredBy Config.oracle s.trace (waitEvents Config.cfg answers) = true ∧
      exec .waitReady s = .next ((s.afterWait Config.cfg answers).complete (.wait (waitResultOf answers))) ∧
      1 ≤ answers.length ∧ answers.length ≤ Config.cfg.nPollMax ∧
      (waitResultOf answers = .exhausted → answers.length = Config.cfg.nPollMax) ∧
      (waitEvents Config.cfg answers).length = 19 * answers.length + (answers.length - 1) +
        (if waitResultOf answers = .exhausted ∧ Config.cfg.pollDelayAfterLast = true then 1 else 0)

/-- R121: whatever the device answers, WAIT_READY returns after at most N_POLL_MAX polls and N_POLL_MAX delays between
them, within the events and the nominal time R121 states. -/
def Obligations.WaitReadyIsBounded : Prop :=
  ∀ (c : Cfg) (o : Oracle) (s : State), s.Accepting → ∃ (t : State) (answers : List Answer),
    execAt c o .waitReady s = .next t ∧ t.trace = s.trace ++ waitEvents c answers ∧
    answers.length ≤ c.nPollMax ∧
    (waitEvents c answers).length ≤ 20 * c.nPollMax ∧
    (waitEvents c answers).length - 19 * answers.length ≤ c.nPollMax ∧
    nominal (waitEvents c answers) ≤ c.nPollMax * (2 * pulseUs c + c.dPollUs)

/-- "exactly one busy poll" of an always-ready display (R120 corner cases): a device whose every answer reads ready is
polled once, with no delay, and WAIT_READY returns READY. -/
def Obligations.ReadyDeviceIsPolledOnce : Prop :=
  ∀ (c : Cfg) (o : Oracle) (s : State), 1 ≤ c.nPollMax → (∀ tr, busyFlagOf (o tr) = false) → s.Accepting →
    ∃ n1 n2 : Nibble,
      execAt c o .waitReady s =
        .next (({ s.afterRead c n1 n2 with attempt := 1 } : State).complete (.wait .ready))

/-- R178: against a device that never reads ready, the wait runs to its bound and the byte is sent all the same. -/
def Obligations.BusyDeviceIsWrittenAnyway : Prop :=
  ∀ (c : Cfg) (o : Oracle) (ch : Byte) (s : State), 1 ≤ c.nPollMax → (∀ tr, busyFlagOf (o tr) = true) → s.Accepting →
    ∃ answers : List Answer, answers.length = c.nPollMax ∧ (∀ a ∈ answers, busyFlagOf a.1 = true) ∧
      execAt c o (.writeChar ch) s = .next (((s.afterWait c answers).afterByte c ch .data).complete .done) ∧
      (s.afterWait c answers).bf = some true

/-- R124: WRITE_COMMAND is one wait and then the byte in command mode, sent whatever the wait returned. -/
def Obligations.WriteCommandResult : Prop :=
  ∀ (cmd : Byte) (s : State), s.Accepting →
    decode (assembleWord 0x12#8 cmd 0#8) = .ok (.writeCommand cmd) ∧
    ∃ answers : List Answer, isWaitOf Config.cfg.nPollMax answers = true ∧
      answeredBy Config.oracle s.trace (waitEvents Config.cfg answers) = true ∧
      exec (.writeCommand cmd) s =
        .next (((s.afterWait Config.cfg answers).afterByte Config.cfg cmd .command).complete .done)

/-- R127: WRITE_CHAR is one wait and then the byte in data mode, sent whatever the wait returned. -/
def Obligations.WriteCharResult : Prop :=
  ∀ (ch : Byte) (s : State), s.Accepting →
    decode (assembleWord 0x13#8 ch 0#8) = .ok (.writeChar ch) ∧
    ∃ answers : List Answer, isWaitOf Config.cfg.nPollMax answers = true ∧
      answeredBy Config.oracle s.trace (waitEvents Config.cfg answers) = true ∧
      exec (.writeChar ch) s =
        .next (((s.afterWait Config.cfg answers).afterByte Config.cfg ch .data).complete .done)

/-- R134: SET_CURSOR drops out-of-range coordinates with nothing in the spec's state changed (only the observed result is
appended), and in range is WRITE_COMMAND of the positioning byte, with result ISSUED. -/
def Obligations.SetCursorResult : Prop :=
  ∀ (row col : Byte) (s : State), s.Accepting →
    decode (assembleWord 0x14#8 row col) = .ok (.setCursor row col) ∧
    (¬ (row.toNat < 2 ∧ col.toNat < 0x27) →
      exec (.setCursor row col) s = .next { s with results := s.results ++ [.cursor .dropped] }) ∧
    (row.toNat < 2 ∧ col.toNat < 0x27 →
      ∃ answers : List Answer, isWaitOf Config.cfg.nPollMax answers = true ∧
        answeredBy Config.oracle s.trace (waitEvents Config.cfg answers) = true ∧
        exec (.setCursor row col) s =
          .next (((s.afterWait Config.cfg answers).afterByte Config.cfg
            (Config.cfg.cmdSetDdram ||| BitVec.ofNat 8 (row.toNat * 0x40 + col.toNat)) .command).complete
              (.cursor .issued)))

/-- R135 and R175, on TRACE, for every configuration and device: SET_CURSOR appends a non-empty event list iff the guard
holds, and then its two SetBus events carry the high and the low nibble of `CMD_SET_DDRAM | addr`. -/
def Obligations.PositioningCommandIffInRange : Prop :=
  ∀ (c : Cfg) (o : Oracle) (row col : Byte) (s t : State), execAt c o (.setCursor row col) s = .next t →
    ∃ evs : List PinEvent, t.trace = s.trace ++ evs ∧
      (evs ≠ [] ↔ row.toNat < 2 ∧ col.toNat < 0x27) ∧
      (row.toNat < 2 ∧ col.toNat < 0x27 →
        busValues evs = [hi (c.cmdSetDdram ||| BitVec.ofNat 8 (row.toNat * 0x40 + col.toNat)),
          lo (c.cmdSetDdram ||| BitVec.ofNat 8 (row.toNat * 0x40 + col.toNat))])

/-- R138: CLEAR is WRITE_COMMAND of the clear byte: one wait, two nibbles, no extra delay. -/
def Obligations.ClearResult : Prop :=
  ∀ s : State, s.Accepting →
    decode (assembleWord 0x15#8 0#8 0#8) = .ok .clear ∧
    ∃ answers : List Answer, isWaitOf Config.cfg.nPollMax answers = true ∧
      answeredBy Config.oracle s.trace (waitEvents Config.cfg answers) = true ∧
      exec .clear s =
        .next (((s.afterWait Config.cfg answers).afterByte Config.cfg Config.cfg.cmdClear .command).complete .done)

/-- R140 with R142: INIT completes whatever the latches hold and whatever the device answers, with its events in order,
and leaves the values of R31 and PSTATE = READY. -/
def Obligations.InitResult : Prop :=
  ∀ s : State, s.AwaitingInit →
    decode (assembleWord 0x10#8 0#8 0#8) = .ok .init ∧
    ∃ w1 w2 w3 w4 : List Answer, (∀ w ∈ [w1, w2, w3, w4], isWaitOf Config.cfg.nPollMax w = true) ∧
      answeredBy Config.oracle s.trace (initEvents Config.cfg w1 w2 w3 w4) = true ∧
      exec .init s = .next ((s.afterInit Config.cfg w1 w2 w3 w4).complete .done)

/-- R31, for every configuration that polls at least once and every device: what INIT leaves, from any latches. `w1` to
`w4` are the answers its four waits read, tied to the events it appended and to the device. -/
def Obligations.InitLeavesTheReadyState : Prop :=
  ∀ (c : Cfg) (o : Oracle) (s t : State), 1 ≤ c.nPollMax → execAt c o .init s = .next t →
    t.pins.e = some .deasserted ∧ t.pins.rw = some .deasserted ∧ t.pins.rs = some .deasserted ∧
    t.pins.dir = some .output ∧ t.pins.dbOut = some (lo c.cmdEntryModeLtr) ∧
    t.pins.cfgData = true ∧ t.pins.cfgE = true ∧ t.pins.cfgRs = true ∧ t.pins.cfgRw = true ∧ t.pstate = .ready ∧
    ∃ w1 w2 w3 w4 : List Answer, (∀ w ∈ [w1, w2, w3, w4], isWaitOf c.nPollMax w = true) ∧
      t.trace = s.trace ++ initEvents c w1 w2 w3 w4 ∧ answeredBy o s.trace (initEvents c w1 w2 w3 w4) = true ∧
      t.bf = w4.getLast?.map (fun a => busyFlagOf a.1) ∧ t.bf.isSome = true ∧ t.attempt = w4.length

/-- R143: the size of INIT in its three parts, for an always-ready and for a never-ready device and in both forms of the
bootstrap; in every case exactly 3 or 5 bootstrap nibble cycles and exactly 8 configuration nibble cycles, each with its
one SetBus. -/
def Obligations.InitSizes : Prop :=
  ∀ (c : Cfg) (o : Oracle) (s t : State), 1 ≤ c.nPollMax → execAt c o .init s = .next t →
    ∃ conf : List PinEvent, t.trace = s.trace ++ (initSetup c ++ (bootstrapEvents c ++ conf)) ∧
      (initSetup c).length = 9 ∧
      (bootstrapEvents c).length = (match c.boot02Form with | .byte => 8 + 1 + 16 + 1 + 16 + 1 | .nibble => 8 + 1 + 8 + 1 + 8 + 1) ∧
      ((∀ tr, busyFlagOf (o tr) = false) → conf.length = 141 ∧
        t.trace.length = s.trace.length + (match c.boot02Form with | .byte => 193 | .nibble => 177)) ∧
      ((∀ tr, busyFlagOf (o tr) = true) → c.pollDelayAfterLast = false →
        conf.length = 4 * (20 * c.nPollMax - 1 + 16) + 1) ∧
      (busValues (bootstrapEvents c)).length = (match c.boot02Form with | .byte => 5 | .nibble => 3) ∧
      (busValues conf).length = 8

/-- TV6 of R187, and R180: in every INIT each bootstrap transmission is followed by `DelayUs(40)` before the next
Assert(E), and there is no bus read between the power-up delay and the last of those delays. -/
def Obligations.BootstrapUsesFixedDelays : Prop :=
  (∀ (c : Cfg) (w1 w2 w3 w4 : List Answer), c.dBootUs = 40 → tv6 c (initEvents c w1 w2 w3 w4) = true) ∧
  (∀ (c : Cfg) (ev : PinEvent), ev ∈ bootstrapEvents c → ev ≠ .setDir .input ∧ ∀ v, ev ≠ .readBus v) ∧
  (∀ (c : Cfg) (w1 w2 w3 w4 : List Answer), ∃ rest, initEvents c w1 w2 w3 w4 = initSetup c ++ (bootstrapEvents c ++ rest))

/-- R130: WRITE_STRING performs, for each byte in order, one wait of its own and then the byte in data mode; for the
empty string nothing. -/
def Obligations.WriteStringResult : Prop :=
  ∀ (c : Cfg) (o : Oracle) (bytes : List Byte) (s : State), 1 ≤ c.nPollMax → ∃ waits : List (List Answer),
    waits.length = bytes.length ∧ (∀ w ∈ waits, isWaitOf c.nPollMax w = true) ∧
    (writeString c o bytes s).trace = s.trace ++
      ((bytes.zip waits).map fun x => waitEvents c x.2 ++ byteEvents c x.1 .data).flatten ∧
    answeredBy o s.trace (((bytes.zip waits).map fun x => waitEvents c x.2 ++ byteEvents c x.1 .data).flatten) = true ∧
    (bytes = [] → (writeString c o bytes s).trace = s.trace ∧ (writeString c o bytes s).bf = s.bf ∧
      (writeString c o bytes s).pins = s.pins ∧ (writeString c o bytes s).attempt = s.attempt) ∧
    (∀ b, bytes.getLast? = some b → (writeString c o bytes s).pins.dbOut = some (lo b) ∧
      (writeString c o bytes s).pins.rs = some .asserted ∧ (writeString c o bytes s).pins.dir = some .output ∧
      (writeString c o bytes s).pins.rw = some .deasserted ∧ (writeString c o bytes s).pins.e = some .deasserted) ∧
    (writeString c o bytes s).pstate = s.pstate ∧ (writeString c o bytes s).commands = s.commands ∧
    (writeString c o bytes s).results = s.results

/-- R75 against R130: feeding the words `write_string(s)` expands to, one step each, does to the block what the
operation of R130 does, one result per character observed. -/
def Obligations.StringRunsAsItsWords : Prop :=
  ∀ (c : Cfg) (o : Oracle) (bytes : List Byte) (ws : List CommandWord) (s : State), s.Accepting →
    runAt c o bytes.length { s with commands := (bytes.map fun b => encode (.writeChar b)) ++ ws } =
      .next { writeString c o bytes s with
        upc := 0, commands := ws, results := s.results ++ bytes.map fun _ => Result.done }

/-- R151, R154, R70: an exhausted wait (`ERR_TIMEOUT`, code 2) is recorded as `BF = 1`, `ATTEMPT = N_POLL_MAX` and in the
result, and nowhere else; an out-of-range cursor (`ERR_RANGE`, code 1) in the result alone; no other operation has an
error, and the result values are numbered as R70 has them. -/
def Obligations.ErrorsAreAbsorbed : Prop :=
  (∀ (c : Cfg) (o : Oracle) (s t : State), 1 ≤ c.nPollMax → execAt c o .waitReady s = .next t →
    ∃ r : Result, t.results = s.results ++ [r] ∧
      (resultValue r = some 0 ∧ errorOf r = none ∧ timeoutRecorded c t = false ∨
        resultValue r = some 1 ∧ (errorOf r).map errorCode = some 2 ∧ timeoutRecorded c t = true)) ∧
  (∀ (c : Cfg) (o : Oracle) (row col : Byte) (s t : State), execAt c o (.setCursor row col) s = .next t →
    ∃ r : Result, t.results = s.results ++ [r] ∧
      (cursorInRange row col = true ∧ resultValue r = some 0 ∧ errorOf r = none ∨
        cursorInRange row col = false ∧ resultValue r = some 1 ∧ (errorOf r).map errorCode = some 1 ∧
          t = { s with results := s.results ++ [r] })) ∧
  (∀ (c : Cfg) (o : Oracle) (s t : State), execAt c o .readBusy s = .next t →
    ∃ r : Result, t.results = s.results ++ [r] ∧ errorOf r = none ∧ resultValue r = t.bf.map Bool.toNat) ∧
  (∀ (c : Cfg) (o : Oracle) (i : Instr) (s t : State), execAt c o i s = .next t →
    (match i with
      | .sendNibble _ _ | .sendByte _ _ | .init | .writeCommand _ | .writeChar _ | .clear =>
        t.results = s.results ++ [.done]
      | _ => True))

/-! ## Time and termination -/

/-- R182: a bound on the events of every operation, for every configuration and device. -/
def Obligations.TerminationBounds : Prop :=
  (∀ (c : Cfg) (o : Oracle) (i : Instr) (s t : State), execAt c o i s = .next t →
    ∃ evs : List PinEvent, t.trace = s.trace ++ evs ∧
      (match i with
        | .sendNibble _ _ => evs.length = 8
        | .sendByte _ _ => evs.length = 16
        | .readBusy => evs.length = 19
        | .waitReady => evs.length ≤ 20 * c.nPollMax
        | .writeCommand _ => evs.length ≤ 20 * c.nPollMax + 16
        | .writeChar _ => evs.length ≤ 20 * c.nPollMax + 16
        | .clear => evs.length ≤ 20 * c.nPollMax + 16
        | .setCursor _ _ => evs.length = 0 ∨ evs.length ≤ 20 * c.nPollMax + 16
        | .init => evs.length ≤ 9 + 11 + (match c.boot02Form with | .byte => 32 | .nibble => 16) +
            4 * (20 * c.nPollMax + 16) + 1)) ∧
  (∀ (c : Cfg) (o : Oracle) (bytes : List Byte) (s : State), ∃ evs : List PinEvent,
    (writeString c o bytes s).trace = s.trace ++ evs ∧ evs.length ≤ bytes.length * (20 * c.nPollMax + 16))

/-- R189: the nominal duration of a wait that made `k` polls, of a byte after it, and of INIT. -/
def Obligations.NominalDurations : Prop :=
  (∀ (c : Cfg) (answers : List Answer), isWaitOf c.nPollMax answers = true → answers ≠ [] →
    nominal (waitEvents c answers) = 2 * pulseUs c * answers.length + c.dPollUs * (answers.length - 1) +
      (if waitResultOf answers = .exhausted ∧ c.pollDelayAfterLast = true then c.dPollUs else 0)) ∧
  (∀ (c : Cfg) (b : Byte) (m : Mode) (answers : List Answer),
    nominal (waitEvents c answers ++ byteEvents c b m) = nominal (waitEvents c answers) + 2 * pulseUs c) ∧
  (∀ (c : Cfg) (w1 w2 w3 w4 : List Answer), c.dBootUs = 40 →
    nominal (initEvents c w1 w2 w3 w4) = 1000 * c.dPowerupMs + pulseUs c + 3 * 40 +
      (match c.boot02Form with | .byte => 4 * pulseUs c | .nibble => 2 * pulseUs c) +
      (nominal (waitEvents c w1) + 2 * pulseUs c) + (nominal (waitEvents c w2) + 2 * pulseUs c) +
      (nominal (waitEvents c w3) + 2 * pulseUs c) + (nominal (waitEvents c w4) + 2 * pulseUs c) +
      1000 * c.dClearExtraMs)

/-- The converse part of R187: a configuration under which the trace of one SEND_BYTE, from the state at rest, meets TV1
to TV3 is timing-valid, so V1 to V3 are necessary as well. -/
def Obligations.TimingValidityIsNecessary : Prop :=
  ∀ (c : Cfg) (p : Pins) (b : Byte) (m : Mode), p.AtRest →
    timingHolds c (Watch.start p) (byteEvents c b m) = true → c.TimingValid

/-! ## Whole-machine rules -/

/-- `State.Sound` holds at reset, for every configuration. -/
def Obligations.ResetIsSound : Prop := ∀ c : Cfg, State.reset.Sound c

/-- Every step keeps `State.Sound`: the latches are what TRACE makes of the reset latches (R23, R80), nothing is running
between two steps (R21), INITIALIZING is never seen at the command port (R159), nothing has happened before INIT (R30),
and after it the block is at rest with ATTEMPT in 1 .. N_POLL_MAX (R18, R32, R176). -/
def Obligations.StepKeepsSound : Prop :=
  ∀ s t : State, s.Sound Config.cfg → step s = .next t → t.Sound Config.cfg

/-- `State.TimingSound` holds at reset, for every configuration. -/
def Obligations.ResetIsTimingSound : Prop := ∀ c : Cfg, State.reset.TimingSound c

/-- Every step keeps `State.TimingSound`: the whole trace since reset meets TV1 to TV5 of R187 (the configuration being
timing-valid), and leaves every pulse closed and settled. -/
def Obligations.StepKeepsTimingSound : Prop :=
  ∀ s t : State, s.Sound Config.cfg → s.TimingSound Config.cfg → step s = .next t → t.TimingSound Config.cfg

/-- R176: every operation keeps the state at rest, for every configuration and device, and INIT establishes it from any
latches. -/
def Obligations.OperationsKeepRest : Prop :=
  ∀ (c : Cfg) (o : Oracle) (i : Instr) (s t : State), execAt c o i s = .next t →
    (s.pins.AtRest → t.pins.AtRest) ∧ (i = .init → t.pins.AtRest)

/-- R92: every event of every operation meets its precondition where it is emitted, from the state at rest, and for INIT
from any latches. -/
def Obligations.PreconditionsAreTheorems : Prop :=
  ∀ (c : Cfg) (o : Oracle) (i : Instr) (s t : State), execAt c o i s = .next t → (s.pins.AtRest ∨ i = .init) →
    ∃ evs : List PinEvent, t.trace = s.trace ++ evs ∧ preconditionsHold s.pins evs = true

/-- TV2's second clause, TV4 and TV5 of R187, R55 and R177, whatever the constants: inside a pulse there are only delays
and reads, a read is sampled as TV4 asks, and block and device never both drive the bus. -/
def Obligations.SequencingHoldsUnconditionally : Prop :=
  ∀ (c : Cfg) (o : Oracle) (i : Instr) (s t : State), execAt c o i s = .next t →
    (s.pins.AtRest ∨ i = .init ∧ s.pins = Pins.reset) →
    ∃ evs : List PinEvent, t.trace = s.trace ++ evs ∧ sequencingHolds c (Watch.start s.pins) evs = true

/-- Invariant (a) on TRACE (R173) is kept by every operation, for every configuration and device. -/
def Obligations.TurnaroundInvariant : Prop :=
  ∀ (c : Cfg) (o : Oracle) (i : Instr) (s t : State), execAt c o i s = .next t →
    turnaroundHolds s.trace = true → turnaroundHolds t.trace = true

/-- R174, invariant (b): every byte the waiting operations send, and every byte of INIT after its bootstrap, stands
immediately behind the events of one WAIT_READY of at least one and at most N_POLL_MAX polls, the last of which read
ready or was the N_POLL_MAX-th. -/
def Obligations.WaitBeforeTransmit : Prop :=
  ∀ (c : Cfg) (o : Oracle) (i : Instr) (s t : State), 1 ≤ c.nPollMax → execAt c o i s = .next t →
    (match i with
      | .writeCommand _ | .writeChar _ | .clear => ∃ evs, t.trace = s.trace ++ evs ∧ IsWaitedByte c evs
      | .setCursor row col => ∃ evs, t.trace = s.trace ++ evs ∧
          (if cursorInRange row col = true then IsWaitedByte c evs else evs = [])
      | .init => ∃ e1 e2 e3 e4, (∀ e ∈ [e1, e2, e3, e4], IsWaitedByte c e) ∧
          t.trace = s.trace ++ (initSetup c ++ bootstrapEvents c ++ e1 ++ e2 ++ e3 ++ [.delayMs c.dClearExtraMs] ++ e4)
      | .sendNibble _ _ | .sendByte _ _ | .readBusy | .waitReady => True)

/-- R173, first sentence: the data bus is in OUTPUT direction at the start and the end of every public operation, but for
the start of INIT, before which nothing has set it. -/
def Obligations.PublicOperationsStartAndEndInOutput : Prop :=
  ∀ (i : Instr) (s t : State), s.Sound Config.cfg → isPublic i = true → exec i s = .next t →
    (i ≠ .init → s.pins.dir = some .output) ∧ t.pins.dir = some .output

/-- The table of R16: an operation emits an event that writes a latch exactly where the table has "W". -/
def Obligations.LatchTable : Prop :=
  ∀ (c : Cfg) (o : Oracle) (i : Instr) (s t : State), 1 ≤ c.nPollMax → execAt c o i s = .next t →
    ∃ evs : List PinEvent, t.trace = s.trace ++ evs ∧
      ∀ l : Latch, (∃ ev ∈ evs, l ∈ latchesOf ev) ↔ l ∈ latchesWrittenBy i

/-- R72, R41: from the state at rest, and for INIT from the reset latches as well, no operation produces a read of the data
register, and every write cycle carries a determined register select and nibble. (Where in its pulse a write cycle is
counted is the model's choice, log entry 17.) -/
def Obligations.NoReadOfTheDataRegister : Prop :=
  ∀ (c : Cfg) (o : Oracle) (i : Instr) (s t : State), execAt c o i s = .next t →
    (s.pins.AtRest ∨ i = .init ∧ s.pins = Pins.reset) →
    ∃ evs : List PinEvent, t.trace = s.trace ++ evs ∧ ∀ cyc ∈ busCycles s.pins evs,
      (∃ v, cyc = .read (some .deasserted) v) ∨ (∃ l v, cyc = .write (some l) (some v))

/-- R64, R43: what the device sees of a byte and of a busy-flag read, from the state at rest. (That a write cycle is taken
at the end of its pulse is the model's choice, log entry 17; `LatchedNibbleIsStable` says that either edge gives it.) -/
def Obligations.BytesOnTheWire : Prop :=
  (∀ (c : Cfg) (p : Pins) (b : Byte) (m : Mode), p.AtRest →
    busCycles p (byteEvents c b m) =
      [.write (some (levelOf m)) (some (b.extractLsb' 4 4)), .write (some (levelOf m)) (some (b.extractLsb' 0 4))]) ∧
  (∀ (c : Cfg) (p : Pins) (n1 n2 : Nibble), p.AtRest →
    busCycles p (readBusyEvents c n1 n2) = [.read (some .deasserted) n1, .read (some .deasserted) n2])

/-- The values of the latches, BF, ATTEMPT, the waiting words and the earlier results that an operation finds on entry do
not matter: with others in all of those it appends the same events and the same result. For the latches: "No operation
reads a latch to decide anything" (R16). For BF and ATTEMPT: WAIT_READY does decide on them, but only after it has set
them itself, ATTEMPT in steps 0 and 3 and BF in step 2 of its pseudocode (42_protocol_controller.md section 1). The
waiting words and the earlier results are the model's own fields (log entries 4 and 5). -/
def Obligations.EventsDoNotDependOnLatches : Prop :=
  ∀ (c : Cfg) (o : Oracle) (i : Instr) (s t : State) (p : Pins) (f : Option Bool) (n : Nat) (ws : List CommandWord)
    (rs : List Result), execAt c o i s = .next t →
    ∃ (t' : State) (r : Result),
      execAt c o i { s with pins := p, bf := f, attempt := n, commands := ws, results := rs } = .next t' ∧
      t'.trace = t.trace ∧ t.results = s.results ++ [r] ∧ t'.results = rs ++ [r] ∧ t'.pstate = t.pstate ∧
      t'.commands = ws

/-- R84: every sequence of answers is possible: for any answers of one wait there is a device that gives exactly them. -/
def Obligations.EveryAnswerIsPossible : Prop :=
  ∀ (c : Cfg) (s : State) (answers : List Answer), s.Accepting → isWaitOf c.nPollMax answers = true → answers ≠ [] →
    ∃ o : Oracle, execAt c o .waitReady s = .next ((s.afterWait c answers).complete (.wait (waitResultOf answers)))

/-- R19, R20: PSTATE moves only from UNINIT to READY, by INIT; the configuration bits are set by INIT, changed by nothing
else and never cleared; TRACE only grows; an operation touches the command port's words not at all and observes exactly
one result. -/
def Obligations.ControlStateFrame : Prop :=
  ∀ (i : Instr) (s t : State), exec i s = .next t →
    t.pstate = .ready ∧ (i = .init ↔ s.pstate = .uninit) ∧
    (i ≠ .init → t.pins.cfgData = s.pins.cfgData ∧ t.pins.cfgE = s.pins.cfgE ∧ t.pins.cfgRs = s.pins.cfgRs ∧
      t.pins.cfgRw = s.pins.cfgRw) ∧
    (∃ evs, t.trace = s.trace ++ evs ∧ t.pins = s.pins.replay evs) ∧ t.upc = 0 ∧ t.commands = s.commands ∧
    ∃ r, t.results = s.results ++ [r]
end

