-- ==== Sys2Proof/Laws/Decode.lean ====
section
/-! SUPPORT. The command word and its three fields, and the must-be-zero bits of the formats. -/

namespace Sys2Proof

/-! A word assembled from three fields has those fields, and every word is assembled from its own. -/

theorem op_assembleWord (x y z : Byte) : (assembleWord x y z).op = x := by
  unfold assembleWord CommandWord.op
  ext i hi
  rw [BitVec.getElem_extractLsb']
  simp only [BitVec.getLsbD_append]
  simp [show ¬ (16 + i < 8) by omega, show ¬ (16 + i - 8 < 8) by omega, show 16 + i - 8 - 8 = i by omega,
    BitVec.getLsbD_eq_getElem hi]

theorem a_assembleWord (x y z : Byte) : (assembleWord x y z).a = y := by
  unfold assembleWord CommandWord.a
  ext i hi
  rw [BitVec.getElem_extractLsb']
  simp only [BitVec.getLsbD_append]
  simp [hi]

theorem b_assembleWord (x y z : Byte) : (assembleWord x y z).b = z := by
  unfold assembleWord CommandWord.b
  ext i hi
  rw [BitVec.getElem_extractLsb']
  simp only [BitVec.getLsbD_append]
  simp [hi]

theorem assembleWord_fields (w : CommandWord) : assembleWord w.op w.a w.b = w := by
  unfold assembleWord CommandWord.op CommandWord.a CommandWord.b
  apply BitVec.eq_of_getLsbD_eq
  intro i hi
  simp only [BitVec.getLsbD_append, BitVec.getLsbD_extractLsb']
  by_cases h1 : i < 8
  · simp [h1]
  · by_cases h2 : i < 16
    · simp [h1, show i - 8 < 8 by omega, show 8 + (i - 8) = i by omega]
    · simp [h1, show ¬ (i - 8 < 8) by omega, show 16 + (i - 8 - 8) = i by omega]
      intro _
      omega

/-- Masking a word is masking its three fields. -/
theorem and_eq_iff_fields (w m p : CommandWord) :
    w &&& m = p ↔ w.op &&& m.op = p.op ∧ w.a &&& m.a = p.a ∧ w.b &&& m.b = p.b := by
  have h1 : (w &&& m).op = w.op &&& m.op := BitVec.extractLsb'_and
  have h2 : (w &&& m).a = w.a &&& m.a := BitVec.extractLsb'_and
  have h3 : (w &&& m).b = w.b &&& m.b := BitVec.extractLsb'_and
  constructor
  · rintro rfl
    exact ⟨h1.symm, h2.symm, h3.symm⟩
  · rintro ⟨e1, e2, e3⟩
    rw [← assembleWord_fields (w &&& m), ← assembleWord_fields p, h1, h2, h3, e1, e2, e3]

theorem modeOfByte_modeByte (m : Mode) : modeOfByte (modeByte m) = m := by cases m <;> rfl

theorem modeBitsZero_modeByte (m : Mode) : modeBitsZero (modeByte m) = true := by cases m <;> decide

theorem modeByte_modeOfByte (b : Byte) (h : modeBitsZero b = true) : modeByte (modeOfByte b) = b := by
  revert b; decide

theorem nibbleByte_high (v : Nibble) : (0#4 ++ v : Byte).extractLsb' 4 4 = 0#4 := by revert v; decide

theorem nibbleByte_low (v : Nibble) : (0#4 ++ v : Byte).extractLsb' 0 4 = v := by revert v; decide

theorem nibbleByte_of_high (a : Byte) (h : a.extractLsb' 4 4 = 0#4) : (0#4 ++ a.extractLsb' 0 4 : Byte) = a := by
  revert a; decide

theorem and_F0_iff (a : Byte) : a &&& 0xF0#8 = 0#8 ↔ a.extractLsb' 4 4 = 0#4 := by revert a; decide

theorem and_FE_iff (a : Byte) : a &&& 0xFE#8 = 0#8 ↔ modeBitsZero a = true := by revert a; decide

theorem and_FF_eq (a : Byte) : a &&& 0xFF#8 = a := by revert a; decide

end Sys2Proof
end

