-- ==== Sys2Proof/Laws/PerInstr.lean ====
section
/-! SUPPORT. Statements for every instruction as syntax. The family RowMatch: the command word of an operation is matched
by the row of the opcode map that carries its mnemonic (spec/30_encoding.md R62), whatever its operands. -/

namespace Sys2Proof.Laws.RowMatch

/-- The row of the opcode map with the operation's mnemonic is in the map and matches the operation's word. -/
def Statement (i : Instr) : Prop :=
  ∃ r : OpcodeRow, r ∈ opcodeTable ∧ r.mnemonic = i.mnemonic ∧ encode i &&& r.mask = r.pattern

/-- A word assembled from three fields is matched by a row when each field is. -/
theorem of_fields {op a b : Byte} {m p : CommandWord} (h1 : op &&& m.op = p.op) (h2 : a &&& m.a = p.a)
    (h3 : b &&& m.b = p.b) : assembleWord op a b &&& m = p := by
  rw [and_eq_iff_fields, op_assembleWord, a_assembleWord, b_assembleWord]
  exact ⟨h1, h2, h3⟩

theorem zero_mask : ∀ x : Byte, x &&& 0#8 = 0#8 := by decide

theorem nibble_mask : ∀ v : Nibble, (0#4 ++ v : Byte) &&& 0xF0#8 = 0#8 := by decide

theorem mode_mask (m : Mode) : modeByte m &&& 0xFE#8 = 0#8 := by cases m <;> decide

theorem sendNibble (value : Nibble) (mode : Mode) : Statement (.sendNibble value mode) :=
  ⟨⟨"SEND_NIBBLE", 0x010000#24, 0xFFF0FE#24⟩, by decide, rfl, of_fields (by decide) (nibble_mask value) (mode_mask mode)⟩

theorem sendByte (value : Byte) (mode : Mode) : Statement (.sendByte value mode) :=
  ⟨⟨"SEND_BYTE", 0x020000#24, 0xFF00FE#24⟩, by decide, rfl, of_fields (by decide) (zero_mask value) (mode_mask mode)⟩

theorem readBusy : Statement .readBusy := by unfold Statement; decide

theorem init : Statement .init := by unfold Statement; decide

theorem waitReady : Statement .waitReady := by unfold Statement; decide

theorem writeCommand (cmd : Byte) : Statement (.writeCommand cmd) :=
  ⟨⟨"WRITE_COMMAND", 0x120000#24, 0xFF00FF#24⟩, by decide, rfl, of_fields (by decide) (zero_mask cmd) (by decide)⟩

theorem writeChar (c : Byte) : Statement (.writeChar c) :=
  ⟨⟨"WRITE_CHAR", 0x130000#24, 0xFF00FF#24⟩, by decide, rfl, of_fields (by decide) (zero_mask c) (by decide)⟩

theorem setCursor (row col : Byte) : Statement (.setCursor row col) :=
  ⟨⟨"SET_CURSOR", 0x140000#24, 0xFF0000#24⟩, by decide, rfl, of_fields (by decide) (zero_mask row) (zero_mask col)⟩

theorem clear : Statement .clear := by unfold Statement; decide

end Sys2Proof.Laws.RowMatch
end

