-- ==== Sys2Proof/Tests/Slice0.lean ====
section
/-! SUPPORT. The model's own tests. Expected results are those of spec/95_test_vectors.md and spec/96_test_programs.md
(each theorem names its vector), computed there from the rules; single operations on a small ready state, on the
configuration CFG_REF of 92_eei_decisions.md D21 and a named device. The theorems `test_meets_<obligation>` show that the
hypotheses of that obligation are met together, clause by clause, at boundary values. -/

namespace Sys2Proof.Tests

open Sys2Proof Sys2Proof.Machine

/-! ### Well-formedness: an ill-formed term for each check -/

theorem test_wellformed_nibble : (Call.sendNibble 15 .data).wellFormed = true ∧
    (Call.sendNibble 16 .data).wellFormed = false := by decide

theorem test_wellformed_byte : (Call.sendByte 255 .command).wellFormed = true ∧
    (Call.sendByte 256 .command).wellFormed = false ∧ (Call.writeCommand 256).wellFormed = false ∧
    (Call.writeChar 256).wellFormed = false := by decide

theorem test_wellformed_cursor : (Call.setCursor 255 255).wellFormed = true ∧
    (Call.setCursor 256 0).wellFormed = false ∧ (Call.setCursor 0 256).wellFormed = false := by decide

theorem test_wellformed_string : (Call.writeString [0x48, 0x00, 0xFF]).wellFormed = true ∧
    (Call.writeString [0x48, 0x100]).wellFormed = false := by decide

theorem test_illformed_call_has_no_words : (Call.sendNibble 16 .data).words = none := by decide

/-- A legal word of each format, and a word that each must-be-zero check refuses (R61, R71). -/
theorem test_legal_words :
    [0x010F01#24, 0x02FF00#24, 0x030000#24, 0x12FF00#24, 0x14FFFF#24].all CommandWord.legal = true ∧
    [0x011300#24, 0x010302#24, 0x020003#24, 0x030001#24, 0x100100#24, 0x120001#24, 0x160000#24].any CommandWord.legal =
      false := by decide +kernel

/-! ### Decoding: words written out from the encodings, T-DEC1 to T-DEC29 -/

theorem test_decode_sequencer : decode 0x010300#24 = .ok (.sendNibble 0x3#4 .command) ∧
    decode 0x010F01#24 = .ok (.sendNibble 0xF#4 .data) ∧ decode 0x024101#24 = .ok (.sendByte 0x41#8 .data) ∧
    decode 0x02FF00#24 = .ok (.sendByte 0xFF#8 .command) ∧ decode 0x030000#24 = .ok .readBusy := by decide

theorem test_decode_controller : decode 0x100000#24 = .ok .init ∧ decode 0x110000#24 = .ok .waitReady ∧
    decode 0x122800#24 = .ok (.writeCommand 0x28#8) ∧ decode 0x13FF00#24 = .ok (.writeChar 0xFF#8) ∧
    decode 0x140105#24 = .ok (.setCursor 1#8 5#8) ∧ decode 0x140227#24 = .ok (.setCursor 2#8 39#8) ∧
    decode 0x150000#24 = .ok .clear := by decide

theorem test_decode_illegal : decode 0x011300#24 = .error .nibbleTooWide ∧ decode 0x010302#24 = .error .modeTooWide ∧
    decode 0x020003#24 = .error .modeTooWide ∧ decode 0x030001#24 = .error .operandBNotZero ∧
    decode 0x100100#24 = .error .operandANotZero ∧ decode 0x134101#24 = .error .operandBNotZero ∧
    decode 0x15000F#24 = .error .operandBNotZero ∧ decode 0x000000#24 = .error .unknownOp ∧
    decode 0x040000#24 = .error .unknownOp ∧ decode 0x0F0000#24 = .error .unknownOp ∧
    decode 0x160000#24 = .error .unknownOp ∧ decode 0xFF0000#24 = .error .unknownOp := by decide

/-- The column "command word" of the table of R74. -/
theorem test_encode : encode (.sendNibble 0x3#4 .data) = 0x010301#24 ∧ encode (.sendByte 0xA5#8 .command) = 0x02A500#24 ∧
    encode .readBusy = 0x030000#24 ∧ encode .init = 0x100000#24 ∧ encode .waitReady = 0x110000#24 ∧
    encode (.writeCommand 0x0C#8) = 0x120C00#24 ∧ encode (.writeChar 0x41#8) = 0x134100#24 ∧
    encode (.setCursor 1#8 0x26#8) = 0x140126#24 ∧ encode .clear = 0x150000#24 := by decide

/-- The host's numbering: bits above `nbits` are zero. -/
theorem test_decodeTableWord : decodeTableWord 24 0x140105 = some (.setCursor 1#8 5#8) ∧
    decodeTableWord 24 0x5100000 = some .init ∧ decodeTableWord 24 0x160000 = none := by decide

/-! ### The textual form (R74, R75) -/

theorem test_text_quoted : Text.assembleLine ("write_char('A')".toList) = some [0x134100#24] ∧
    Text.assembleLine ("write_char(',')".toList) = some [0x132C00#24] ∧
    Text.assembleLine ("write_command('A')".toList) = none := by decide

theorem test_text_decimal_and_hex :
    Text.assembleLine ("set_cursor(1, 0x26)".toList) = some [0x140126#24] ∧
    Text.assembleLine ("send_nibble(15, DATA)".toList) = some [0x010F01#24] ∧
    Text.assembleLine ("send_nibble(16, DATA)".toList) = none := by decide

/-- T-WS3, T-WS1, and the worked example `"AB"` of the source. -/
theorem test_text_string :
    Text.assembleLine (Text.nameWriteString ++ ['(', Text.doubleQuote, 'A', 'B', Text.doubleQuote, ')']) =
      some [0x134100#24, 0x134200#24] ∧
    Text.assembleLine (Text.nameWriteString ++ ['(', Text.doubleQuote, Text.doubleQuote, ')']) = some [] := by decide

/-- T-WS4: a string held by its length, with a zero byte inside. -/
theorem test_string_embedded_zero :
    (Call.writeString [0x48, 0x00, 0x69]).words = some [0x134800#24, 0x130000#24, 0x136900#24] := by decide

/-! ### Helpers: the state `S_READY` with an empty trace, the macros of 95_test_vectors.md section 0, devices -/

/-- `S_READY`, with its trace cut off. -/
def ready : State where
  pins := ⟨some 0x6#4, some .deasserted, some .deasserted, some .deasserted, some .output, true, true, true, true⟩
  pstate := .ready
  bf := some false
  attempt := 1
  upc := 0
  trace := []
  commands := []
  results := []

/-- The macro `WN(rs, v)`. -/
def wn (rs : Bool) (v : Nibble) : List PinEvent :=
  [if rs then .assert .rs else .deassert .rs, .setBus v, .deassert .e, .delayUs 1, .assert .e, .delayUs 1, .deassert .e,
    .delayUs 1]

/-- The macro `RP(n)`. -/
def rp (n : Nibble) : List PinEvent :=
  [.deassert .e, .delayUs 1, .assert .e, .delayUs 1, .readBus n, .deassert .e, .delayUs 1]

/-- The macro `RB(n1, n2)`. -/
def rb (n1 n2 : Nibble) : List PinEvent :=
  [.setDir .input, .assert .rw, .deassert .rs] ++ rp n1 ++ rp n2 ++ [.deassert .rw, .setDir .output]

def alwaysReady : Oracle := fun _ => 0x0#4

def neverReady : Oracle := fun _ => 0x8#4

theorem test_alwaysReady : ∀ tr, busyFlagOf (alwaysReady tr) = false := fun _ => (by decide : busyFlagOf 0x0#4 = false)

theorem test_neverReady : ∀ tr, busyFlagOf (neverReady tr) = true := fun _ => (by decide : busyFlagOf 0x8#4 = true)

/-- The device that answers these values in order and then `0x0`. -/
def answers (vs : List Nibble) : Oracle := fun tr =>
  (vs.drop (tr.countP fun ev => match ev with | .readBus _ => true | _ => false)).headD 0x0#4

/-- What a test looks at in a next state. -/
def after {α : Type} (f : State → α) : Outcome → Option α
  | .next s => some (f s)
  | .fault _ => none
  | .refused _ => none

def refusal : Outcome → Option Refusal
  | .next _ => none
  | .fault _ => none
  | .refused r => some r

/-! ### Signal Sequencer -/

/-- T-SN6, and its last row of latches. -/
theorem test_sendNibble_data :
    after (fun s => (s.trace, s.pins.rs, s.pins.dbOut, s.pins.e)) (execAt Cfg.ref alwaysReady (.sendNibble 0xA#4 .data) ready) =
      some (wn true 0xA#4, some .asserted, some 0xA#4, some .deasserted) := by decide

/-- T-SN7: values the latches already hold; all eight events are still emitted. -/
theorem test_sendNibble_repeat :
    after (fun s => (s.trace, s.pins)) (execAt Cfg.ref neverReady (.sendNibble 0x6#4 .command) ready) =
      some (wn false 0x6#4, ready.pins) := by decide

/-- T-SB5. -/
theorem test_sendByte_order :
    after (fun s => (s.trace, s.pins.dbOut)) (execAt Cfg.ref alwaysReady (.sendByte 0xA5#8 .command) ready) =
      some (wn false 0xA#4 ++ wn false 0x5#4, some 0x5#4) := by decide

/-- T-SB4. -/
theorem test_sendByte_data :
    after (fun s => (busValues s.trace, s.pins.rs)) (execAt Cfg.ref alwaysReady (.sendByte 0xF0#8 .data) ready) =
      some ([0xF#4, 0x0#4], some .asserted) := by decide

/-- T-RB1. -/
theorem test_readBusy_busy :
    after (fun s => (s.trace, s.bf, s.results, s.pins)) (execAt Cfg.ref (answers [0x8#4, 0x5#4]) .readBusy ready) =
      some (rb 0x8#4 0x5#4, some true, [.busyFlag true], ready.pins) := by decide

/-- T-RB3: after a data byte; `RS` is not restored, `DB_OUT` is kept. -/
theorem test_readBusy_after_data :
    after (fun s => (s.bf, s.pins))
      (execAt Cfg.ref (answers [0x7#4, 0x8#4]) .readBusy
        { ready with pins := { ready.pins with rs := some .asserted, dbOut := some 0x1#4 } }) =
      some (some false, { ready.pins with rs := some .deasserted, dbOut := some 0x1#4 }) := by decide

/-! ### Protocol Controller -/

/-- T-WR3. -/
theorem test_waitReady_third_poll :
    after (fun s => (s.trace, s.results, s.attempt)) (execAt Cfg.ref (answers [0x8#4, 0, 0x8#4, 0]) .waitReady ready) =
      some (rb 0x8#4 0 ++ .delayUs 10 :: rb 0x8#4 0 ++ .delayUs 10 :: rb 0 0, [.wait .ready], 3) := by decide

/-- T-WR5: exhausted, with the delay after the last poll too. -/
theorem test_waitReady_exhausted :
    after (fun s => (s.trace.length, s.results, s.attempt, s.bf, nominal s.trace))
      (execAt { Cfg.ref with pollDelayAfterLast := true } neverReady .waitReady ready) =
      some (60, [.wait .exhausted], 3, some true, 48) := by
  set_option maxRecDepth 4000 in decide

/-- T-WC2. -/
theorem test_writeCommand :
    after (fun s => (s.trace, s.pins.rs)) (execAt Cfg.ref alwaysReady (.writeCommand 0xFF#8) ready) =
      some (rb 0 0 ++ wn false 0xF#4 ++ wn false 0xF#4, some .deasserted) := by decide

/-- T-WC6. -/
theorem test_writeChar_second_poll :
    after (fun s => (s.trace, s.attempt)) (execAt Cfg.ref (answers [0x8#4, 0x3#4]) (.writeChar 0x41#8) ready) =
      some (rb 0x8#4 0x3#4 ++ .delayUs 10 :: rb 0 0 ++ wn true 0x4#4 ++ wn true 0x1#4, 2) := by decide

/-- T-WC7: sent although every poll read busy. -/
theorem test_writeChar_never_ready :
    after (fun s => (s.trace.length, busValues s.trace, s.bf, s.attempt))
      (execAt Cfg.ref neverReady (.writeChar 0x41#8) ready) =
      some (75, [0x4#4, 0x1#4], some true, 3) := by
  set_option maxRecDepth 4000 in decide

/-- T-SC9. -/
theorem test_setCursor_issued :
    after (fun s => (s.trace, s.results)) (execAt Cfg.ref alwaysReady (.setCursor 1#8 5#8) ready) =
      some (rb 0 0 ++ wn false 0xC#4 ++ wn false 0x5#4, [.cursor .issued]) := by decide

/-- T-SC10, T-SC11, T-SC12, T-SC19: the edges of the guard; a dropped call never polls. -/
theorem test_setCursor_edges :
    after (fun s => busValues s.trace) (execAt Cfg.ref alwaysReady (.setCursor 1#8 0x26#8) ready) =
      some [0xE#4, 0x6#4] ∧
    after id (execAt Cfg.ref neverReady (.setCursor 1#8 0x27#8) ready) =
      some { ready with results := [.cursor .dropped] } ∧
    after id (execAt Cfg.ref neverReady (.setCursor 2#8 0#8) ready) =
      some { ready with results := [.cursor .dropped] } := by decide

/-- T-WC8: one busy wait, no delay after the byte. -/
theorem test_clear :
    after (fun s => s.trace) (execAt Cfg.ref alwaysReady .clear ready) =
      some (rb 0 0 ++ wn false 0x0#4 ++ wn false 0x1#4) := by decide

/-- P1, events 0 to 8 and 17, and its end state; T-IN1. -/
theorem test_init_always_ready :
    after (fun s => (s.trace.take 9, s.trace[17]?, s.trace.length, ({ s with trace := [], results := [] } : State)))
      (execAt Cfg.ref alwaysReady .init State.reset) =
      some ([.cfgCtlOut .e, .deassert .e, .cfgCtlOut .rs, .deassert .rs, .cfgCtlOut .rw, .deassert .rw, .cfgDataOut,
        .setBus 0, .delayMs 50], some (.delayUs 40), 193, ready) := by
  set_option maxRecDepth 4000 in decide

/-- T-IN12. -/
theorem test_init_nibble_form :
    after (fun s => (s.trace.length, nominal s.trace, s.bf, s.attempt))
      (execAt { Cfg.ref with boot02Form := .nibble, pollDelayAfterLast := true } neverReady .init State.reset) =
      some (341, 52345, some true, 3) := by
  set_option maxRecDepth 6000 in decide

/-- T-WS6: the poll counter restarts at 0 for the second character. -/
theorem test_writeString :
    (fun s : State => (s.trace.length, busValues s.trace, s.attempt))
      (writeString Cfg.ref (answers [0x8#4, 0, 0, 0, 0x8#4, 0, 0x8#4, 0]) [0x41#8, 0x42#8] ready) =
      (130, [0x4#4, 0x1#4, 0x4#4, 0x2#4], 3) := by
  set_option maxRecDepth 4000 in decide

/-! ### The command port -/

/-- T-RF1 to T-RF7: before INIT. -/
theorem test_refused_before_init :
    (∀ i ∈ [Instr.writeChar 0x41#8, .clear, .sendNibble 3#4 .command, .readBusy, .setCursor 0#8 0#8],
      refusal (execAt Cfg.ref alwaysReady i State.reset) = some .notInitialised) ∧
    refusal (step { State.reset with commands := [0x160000#24] }) = some .illegalWord := by decide

/-- T-RF8 to T-RF10: after INIT. -/
theorem test_refused_when_ready : refusal (execAt Cfg.ref alwaysReady .init ready) = some .alreadyInitialised ∧
    refusal (step { ready with commands := [0x134101#24] }) = some .illegalWord ∧
    refusal (step { ready with commands := [0x000000#24] }) = some .illegalWord := by decide

/-- With no word waiting the block idles (R30, R170). -/
theorem test_idle : after id (step ready) = some ready := by decide

/-- `withFetchWord` runs INIT first for an operation that needs a session (R171), and nothing first for INIT. -/
theorem test_withFetchWord : (State.reset.withFetchWord 24 0x140200).pstate = .ready ∧
    (State.reset.withFetchWord 24 0x140200).commands.head? = some 0x140200#24 ∧
    State.reset.withFetchWord 24 0x100000 = { State.reset with commands := [0x100000#24] } := by decide

/-! ### Pin Driver events (section 2.2), timing (section 2.12), numbers -/

/-- T-PD1, T-PD2, T-PD8, T-PD9. -/
theorem test_pin_events : Pins.reset.apply .cfgDataOut = { Pins.reset with cfgData := true, dir := some .output } ∧
    Pins.reset.apply (.cfgCtlOut .e) = { Pins.reset with cfgE := true } ∧
    ready.pins.apply (.setDir .input) = { ready.pins with dir := some .input } ∧
    ready.pins.apply (.readBus 0x8#4) = ready.pins := by decide

/-- T-PD13: a line that is `⊥` or not configured satisfies no precondition (R92). -/
theorem test_precondition_fails_at_reset : precondition Pins.reset (.assert .e) = false := by decide

/-- T-TV1, T-TV2. -/
theorem test_timing_constants : Cfg.ref.TimingValid ∧ ¬ ({ Cfg.ref with dPulseUs := 0 } : Cfg).TimingValid ∧
    ¬ ({ Cfg.ref with dSetupUs := 0 } : Cfg).TimingValid ∧ ¬ ({ Cfg.ref with dSettleUs := 0 } : Cfg).TimingValid := by
  decide

/-- Both checks of R187 on a hand-made trace from the ready latches. -/
def checks (evs : List PinEvent) : Bool × Bool :=
  (timingHolds Cfg.ref (Watch.start ready.pins) evs, sequencingHolds Cfg.ref (Watch.start ready.pins) evs)

/-- T-TV4.1, T-TV4.2, T-TV4.4: TV1, the width of TV2, TV3. -/
theorem test_timing_fails :
    checks [.setBus 1, .assert .e, .delayUs 1, .deassert .e, .delayUs 1] = (false, true) ∧
    checks [.setBus 1, .delayUs 1, .assert .e, .deassert .e, .delayUs 1] = (false, true) ∧
    checks [.setBus 1, .delayUs 1, .assert .e, .delayUs 1, .deassert .e, .setBus 3] = (false, true) := by decide

/-- T-TV4.3, T-TV4.5 to T-TV4.8: the second clause of TV2, TV4, TV5. -/
theorem test_sequencing_fails :
    (checks [.setBus 1, .delayUs 1, .assert .e, .setBus 2, .delayUs 1, .deassert .e, .delayUs 1]).2 = false ∧
    (checks [.setDir .input, .assert .rw, .deassert .rs, .deassert .e, .delayUs 1, .readBus 8]).2 = false ∧
    (checks [.setDir .input, .assert .rw, .deassert .rs, .delayUs 1, .assert .e, .readBus 8, .delayUs 1, .deassert .e,
      .delayUs 1, .deassert .rw, .setDir .output]).2 = false ∧
    (checks [.assert .rw, .setDir .input, .deassert .rs]).2 = false ∧
    (checks [.setDir .input, .setBus 5]).2 = false := by decide

/-- TV6: the delay stands before the next pulse, and is asked for where no pulse follows. -/
theorem test_tv6_delay : delayBeforeNextPulse [.delayUs 1, .delayUs 40, .assert .e] = true ∧
    delayBeforeNextPulse [.delayUs 40] = true ∧ delayBeforeNextPulse [.assert .e, .delayUs 40] = false ∧
    delayBeforeNextPulse [.delayUs 1] = false := by decide

/-- A trace the rules do produce passes both (T-TV3). -/
theorem test_timing_holds : checks (wn false 3 ++ rb 8 5) = (true, true) := by decide

/-- R6, R19, R70, R151. -/
theorem test_numbers : levelBit .asserted = 1#1 ∧ levelBit .deasserted = 0#1 ∧
    [ProtocolState.uninit, .initializing, .ready].map protocolStateCode = [0, 1, 2] ∧
    [Result.busyFlag true, .wait .ready, .wait .exhausted, .cursor .issued, .cursor .dropped, .done].map resultValue =
      [some 1, some 0, some 1, some 0, some 1, none] ∧
    [ErrorKind.range, .timeout].map errorCode = [1, 2] := by decide

/-! ### Witnesses: the hypotheses of every obligation that has any are met together -/

theorem test_ready_accepts {i : Instr} (h : i ≠ .init) : Accepts i ready := by
  simp only [Accepts, h, if_false]
  exact ⟨rfl, rfl⟩

/-- Every operation but INIT answers a next state in the ready state, for every configuration and device. -/
theorem test_completes (c : Cfg) (o : Oracle) (i : Instr) (h : i ≠ .init) : ∃ t, execAt c o i ready = .next t :=
  ⟨_, execAt_accepted c o (test_ready_accepts h)⟩

/-- INIT answers a next state at reset, for every configuration and device. -/
theorem test_init_completes (c : Cfg) (o : Oracle) : ∃ t, execAt c o .init State.reset = .next t :=
  ⟨_, execAt_accepted c o (i := .init) ⟨rfl, rfl⟩⟩

theorem test_meets_EncodeDecodeRoundTrip : decode 0x14FFFF#24 = .ok (.setCursor 0xFF#8 0xFF#8) := by decide

theorem test_meets_DecodeAgreesWithOpcodeTable :
    (⟨"SEND_NIBBLE", 0x010000#24, 0xFFF0FE#24⟩ ∈ opcodeTable ∧ 0x010F01#24 &&& 0xFFF0FE#24 = 0x010000#24) ∧
    (∀ r ∈ opcodeTable, 0x160000#24 &&& r.mask ≠ r.pattern) ∧ decode 0x030000#24 = .ok .readBusy ∧
    decode 0x150000#24 = .ok .clear := by decide

theorem test_meets_IllegalWordsAreThoseOfTheRule : decode 0x134101#24 = .error .operandBNotZero := by decide

theorem test_meets_StepRunsDecodedOperation :
    ({ ready with commands := [0x150000#24] } : State).commands = 0x150000#24 :: [] ∧ decode 0x150000#24 = .ok .clear ∧
    ready.commands = [] := by decide

theorem test_meets_PortAcceptsByProtocolState : (State.reset.upc = 0 ∧ State.reset.pstate = .uninit) ∧
    (ready.upc = 0 ∧ ready.pstate = .ready) ∧ Instr.clear ≠ .init ∧ ∃ t, exec .init State.reset = .next t :=
  ⟨⟨rfl, rfl⟩, ⟨rfl, rfl⟩, by decide, test_init_completes Config.cfg Config.oracle⟩

theorem test_meets_RunningBlockRefuses : ({ ready with upc := 1 } : State).upc ≠ 0 ∧
    ({ State.reset with pstate := .initializing } : State).pstate = .initializing := by decide

theorem test_meets_ConfigurationIsAdmissible : Cfg.ref.Admissible := by decide

theorem test_meets_CursorAddressArithmetic : cursorInRange 1#8 0x26#8 = true ∧ cursorInRange 0#8 0#8 = true ∧
    cursorInRange 1#8 0x27#8 = false ∧ cursorInRange 2#8 0x26#8 = false ∧ Cfg.ref.Admissible := by decide

/-- For SendNibbleResult, SendByteResult, ReadBusyResult, WaitReadyResult, WaitReadyIsBounded, WriteCommandResult,
WriteCharResult, ClearResult, StringRunsAsItsWords. -/
theorem test_meets_Accepting : ready.Accepting := by decide

/-- Accepting states need not be at rest or reachable: no latch set at all. -/
theorem test_meets_Accepting_unreachable : ({ State.reset with pstate := .ready } : State).Accepting := by decide

theorem test_meets_LatchedNibbleIsStable : 2 ≤ (2 : Nat) ∧ (2 : Nat) ≤ 8 ∧ 2 ≤ (8 : Nat) ∧ (8 : Nat) ≤ 8 := by decide

theorem test_meets_ReadBusyPostcondition : (∃ t, execAt Cfg.ref neverReady .readBusy ready = .next t) ∧
    ready.pins.Outward ∧ Pins.reset.Outward ∧ (0 : Nat) ≤ 19 ∧ (19 : Nat) ≤ 19 ∧
    (2 ≤ (2 : Nat) ∧ (2 : Nat) ≤ 17) ∧ (2 ≤ (17 : Nat) ∧ (17 : Nat) ≤ 17) ∧
    (∃ t, execAt Cfg.ref neverReady .clear ready = .next t) ∧
    (∃ t, execAt Cfg.ref neverReady .init State.reset = .next t) :=
  ⟨test_completes _ _ _ (by decide), by decide, by decide, by decide, by decide, by decide, by decide,
    test_completes _ _ _ (by decide), test_init_completes _ _⟩

/-- Two devices that answer READ_BUSY differently, but for the flag. -/
theorem test_meets_OnlyTheTopBitOfAReadMatters :
    (answers [0x8#4, 0x5#4] (ready.trace ++ ([.setDir .input, .assert .rw, .deassert .rs] ++ readPulseOpen Cfg.ref))).getLsbD 3 =
      (answers [0xF#4, 0x3#4] (ready.trace ++ ([.setDir .input, .assert .rw, .deassert .rs] ++ readPulseOpen Cfg.ref))).getLsbD 3 ∧
    (∃ t, execAt Cfg.ref (answers [0x8#4, 0x5#4]) .readBusy ready = .next t) ∧
    (∃ t, execAt Cfg.ref (answers [0xF#4, 0x3#4]) .readBusy ready = .next t) :=
  ⟨by decide, test_completes _ _ _ (by decide), test_completes _ _ _ (by decide)⟩

theorem test_meets_ReadyDeviceIsPolledOnce : 1 ≤ Cfg.ref.nPollMax ∧ (∀ tr, busyFlagOf (alwaysReady tr) = false) ∧
    ready.Accepting := ⟨by decide, test_alwaysReady, by decide⟩

theorem test_meets_BusyDeviceIsWrittenAnyway : 1 ≤ Cfg.ref.nPollMax ∧ (∀ tr, busyFlagOf (neverReady tr) = true) ∧
    ready.Accepting := ⟨by decide, test_neverReady, by decide⟩

/-- Both clauses of SetCursorResult, at the edges of the guard. -/
theorem test_meets_SetCursorResult : ready.Accepting ∧ ((1#8).toNat < 2 ∧ (0x26#8).toNat < 0x27) ∧
    ¬ ((1#8).toNat < 2 ∧ (0x27#8).toNat < 0x27) ∧ ¬ ((2#8).toNat < 2 ∧ (0#8).toNat < 0x27) := by decide

theorem test_meets_PositioningCommandIffInRange :
    (∃ t, execAt Cfg.ref alwaysReady (.setCursor 1#8 0x26#8) ready = .next t) ∧
    (∃ t, execAt Cfg.ref alwaysReady (.setCursor 0#8 0x27#8) ready = .next t) ∧
    ((1#8).toNat < 2 ∧ (0x26#8).toNat < 0x27) :=
  ⟨test_completes _ _ _ (by decide), test_completes _ _ _ (by decide), by decide⟩

theorem test_meets_InitResult : State.reset.AwaitingInit := by decide

/-- For InitLeavesTheReadyState, InitSizes (both kinds of device). -/
theorem test_meets_InitSizes : 1 ≤ Cfg.ref.nPollMax ∧ Cfg.ref.pollDelayAfterLast = false ∧
    (∃ t, execAt Cfg.ref alwaysReady .init State.reset = .next t) ∧ (∀ tr, busyFlagOf (alwaysReady tr) = false) ∧
    (∃ t, execAt Cfg.ref neverReady .init State.reset = .next t) ∧ (∀ tr, busyFlagOf (neverReady tr) = true) :=
  ⟨by decide, rfl, test_init_completes _ _, test_alwaysReady, test_init_completes _ _, test_neverReady⟩

theorem test_meets_BootstrapUsesFixedDelays : Cfg.ref.dBootUs = 40 ∧ PinEvent.delayUs 40 ∈ bootstrapEvents Cfg.ref := by
  decide

theorem test_meets_WriteStringResult : 1 ≤ Cfg.ref.nPollMax ∧ [0x41#8, 0x42#8].getLast? = some 0x42#8 := by decide

theorem test_meets_ErrorsAreAbsorbed : 1 ≤ Cfg.ref.nPollMax ∧
    (∃ t, execAt Cfg.ref alwaysReady .waitReady ready = .next t) ∧
    (∃ t, execAt Cfg.ref neverReady .waitReady ready = .next t) ∧
    (∃ t, execAt Cfg.ref neverReady (.setCursor 0#8 0x26#8) ready = .next t) ∧
    (∃ t, execAt Cfg.ref neverReady (.setCursor 2#8 0#8) ready = .next t) ∧
    (∃ t, execAt Cfg.ref neverReady .readBusy ready = .next t) ∧
    (∃ t, execAt Cfg.ref neverReady .clear ready = .next t) :=
  ⟨by decide, test_completes _ _ _ (by decide), test_completes _ _ _ (by decide), test_completes _ _ _ (by decide),
    test_completes _ _ _ (by decide), test_completes _ _ _ (by decide), test_completes _ _ _ (by decide)⟩

/-- For TerminationBounds, PreconditionsAreTheorems, OperationsKeepRest, SequencingHoldsUnconditionally,
NoReadOfTheDataRegister, EventsDoNotDependOnLatches, TurnaroundInvariant, WaitBeforeTransmit, LatchTable: an operation at
rest, and INIT from reset. -/
theorem test_meets_execAt_next : ready.pins.AtRest ∧ turnaroundHolds ready.trace = true ∧ 1 ≤ Cfg.ref.nPollMax ∧
    (∀ i, i ≠ Instr.init → ∃ t, execAt Cfg.ref neverReady i ready = .next t) ∧
    (∃ t, execAt Cfg.ref neverReady .init State.reset = .next t) ∧ State.reset.pins = Pins.reset :=
  ⟨by decide, by decide, by decide, fun i h => test_completes _ _ i h, test_init_completes _ _, rfl⟩

/-- A wait that became ready at its second poll, and one that ran to its bound. -/
theorem test_meets_NominalDurations :
    isWaitOf Cfg.ref.nPollMax [(0x8#4, 0#4), (0x7#4, 0xF#4)] = true ∧
    isWaitOf Cfg.ref.nPollMax [(0x8#4, 0#4), (0x8#4, 0#4), (0xF#4, 0#4)] = true ∧ Cfg.ref.dBootUs = 40 := by decide

theorem test_meets_TimingValidityIsNecessary : ready.pins.AtRest ∧
    timingHolds Cfg.ref (Watch.start ready.pins) (byteEvents Cfg.ref 0x41#8 .data) = true := by decide

/-- A sound state after INIT: its trace is the pin set-up. -/
def soundReady : State :=
  { ready with pins := Pins.reset.replay (initSetup Config.cfg), trace := initSetup Config.cfg }

theorem test_soundReady : soundReady.Sound Config.cfg :=
  ⟨rfl, rfl, fun h => absurd h (by decide), by decide, fun _ =>
    ⟨Pins.atRest_initSetup Pins.reset Config.cfg, rfl, Nat.le_refl 1, Config.one_le_nPollMax, rfl, rfl⟩⟩

theorem test_soundReset (ws : List CommandWord) : ({ State.reset with commands := ws } : State).Sound Config.cfg :=
  ⟨rfl, rfl, fun _ => ⟨rfl, rfl, rfl⟩, ProtocolState.noConfusion, ProtocolState.noConfusion⟩

theorem test_timingSoundReset (ws : List CommandWord) :
    ({ State.reset with commands := ws } : State).TimingSound Config.cfg := ⟨rfl, rfl, rfl, rfl⟩

/-- For StepKeepsSound and StepKeepsTimingSound: a step that runs INIT from reset. -/
theorem test_meets_StepKeepsSound : ({ State.reset with commands := [0x100000#24] } : State).Sound Config.cfg ∧
    ({ State.reset with commands := [0x100000#24] } : State).TimingSound Config.cfg ∧
    ∃ t, step { State.reset with commands := [0x100000#24] } = .next t :=
  ⟨test_soundReset _, test_timingSoundReset _, test_init_completes Config.cfg Config.oracle⟩

/-- For PublicOperationsStartAndEndInOutput: CLEAR after INIT, and INIT at reset. -/
theorem test_meets_PublicOperationsStartAndEndInOutput :
    (soundReady.Sound Config.cfg ∧ isPublic .clear = true ∧ ∃ t, exec .clear soundReady = .next t) ∧
    (State.reset.Sound Config.cfg ∧ isPublic .init = true ∧ ∃ t, exec .init State.reset = .next t) :=
  ⟨⟨test_soundReady, rfl, ⟨_, execAt_accepted Config.cfg Config.oracle (i := .clear) (s := soundReady) ⟨rfl, rfl⟩⟩⟩,
    test_soundReset [], rfl, test_init_completes Config.cfg Config.oracle⟩

theorem test_meets_BytesOnTheWire : ready.pins.AtRest := by decide

theorem test_meets_EveryAnswerIsPossible : ready.Accepting ∧
    isWaitOf Cfg.ref.nPollMax [(0x8#4, 0x5#4), (0x0#4, 0xF#4)] = true ∧ [((0x8#4, 0x5#4) : Answer)] ≠ [] := by decide

theorem test_meets_ControlStateFrame : (∃ t, exec .clear ready = .next t) ∧ ∃ t, exec .init State.reset = .next t :=
  ⟨test_completes Config.cfg Config.oracle .clear (by decide), test_init_completes Config.cfg Config.oracle⟩

end Sys2Proof.Tests
end

section
/-! PROOFS of the family of the state (spec/10_state.md): what an answered instruction leaves is written once, as an
`Effect` (`execAt_effect`); the statements about the state are read off it. -/

namespace Sys2Proof.Machine

/-! ## The port -/

/-- The block of `exec` is that of `execAt` at the model's configuration and device (R24). -/
theorem exec_eq_execAt (i : Instr) (s : State) : exec i s = execAt Config.cfg Config.oracle i s := by
  cases i <;> rfl

theorem step_eq_stepAt (s : State) : step s = stepAt Config.cfg Config.oracle s := by
  unfold step stepAt
  cases nextCommand s with
  | none => rfl
  | some wt =>
    obtain ⟨w, t⟩ := wt
    dsimp only
    cases decode w with
    | ok i => exact exec_eq_execAt i t
    | error e => rfl

/-- The port answers a next state exactly where it accepts the instruction. -/
theorem exists_execAt_next_iff (c : Cfg) (o : Oracle) (i : Instr) (s : State) :
    (∃ t, execAt c o i s = .next t) ↔ Accepts i s :=
  ⟨fun ⟨_, h⟩ => (execAt_next h).1, fun h => ⟨_, execAt_accepted c o h⟩⟩

theorem Accepts.eq_init_iff {i : Instr} {s : State} (h : Accepts i s) : i = .init ↔ s.pstate = .uninit := by
  unfold Accepts at h
  split at h
  · next hi => simp [hi, h.2]
  · next hi => simp [hi, h.2]

theorem Accepts.ready {i : Instr} {s : State} (h : Accepts i s) (hi : i ≠ .init) : s.pstate = .ready := by
  rw [Accepts, if_neg hi] at h
  exact h.2

/-! ## What each operation does, once -/

/-- What an operation adds to the state at the port: its events, its result, and the `BF` and `ATTEMPT` it leaves. -/
structure Effect where
  events : List PinEvent
  result : Result
  bf : Option Bool
  attempt : Nat

/-- The effects an operation can have from `s`, one for each list of answers its waits may read. -/
inductive HasEffect (c : Cfg) (s : State) : Instr → Effect → Prop
  | sendNibble (v : Nibble) (m : Mode) :
    HasEffect c s (.sendNibble v m) ⟨writeCycle c v m, .done, s.bf, s.attempt⟩
  | sendByte (b : Byte) (m : Mode) :
    HasEffect c s (.sendByte b m) ⟨byteEvents c b m, .done, s.bf, s.attempt⟩
  | readBusy (n1 n2 : Nibble) :
    HasEffect c s .readBusy
      ⟨readBusyEvents c n1 n2, .busyFlag (busyFlagOf n1), some (busyFlagOf n1), s.attempt⟩
  | init {w1 w2 w3 w4 : List Answer} (hw1 : isWaitOf c.nPollMax w1 = true) (hw2 : isWaitOf c.nPollMax w2 = true)
      (hw3 : isWaitOf c.nPollMax w3 = true) (hw4 : isWaitOf c.nPollMax w4 = true) :
    HasEffect c s .init
      ⟨initEvents c w1 w2 w3 w4, .done, flagAfter s.bf (w1 ++ w2 ++ w3 ++ w4), w4.length⟩
  | waitReady {w : List Answer} (hw : isWaitOf c.nPollMax w = true) :
    HasEffect c s .waitReady ⟨waitEvents c w, .wait (waitResultOf w), flagAfter s.bf w, w.length⟩
  | writeCommand (cmd : Byte) {w : List Answer} (hw : isWaitOf c.nPollMax w = true) :
    HasEffect c s (.writeCommand cmd) ⟨commandEvents c w cmd, .done, flagAfter s.bf w, w.length⟩
  | writeChar (ch : Byte) {w : List Answer} (hw : isWaitOf c.nPollMax w = true) :
    HasEffect c s (.writeChar ch) ⟨waitEvents c w ++ byteEvents c ch .data, .done, flagAfter s.bf w, w.length⟩
  | cursorIssued {row col : Byte} {w : List Answer} (hin : cursorInRange row col = true)
      (hw : isWaitOf c.nPollMax w = true) :
    HasEffect c s (.setCursor row col)
      ⟨commandEvents c w (positioningByte c row col), .cursor .issued, flagAfter s.bf w, w.length⟩
  | cursorDropped {row col : Byte} (hout : cursorInRange row col = false) :
    HasEffect c s (.setCursor row col) ⟨[], .cursor .dropped, s.bf, s.attempt⟩
  | clear {w : List Answer} (hw : isWaitOf c.nPollMax w = true) :
    HasEffect c s .clear ⟨commandEvents c w c.cmdClear, .done, flagAfter s.bf w, w.length⟩

/-- `s` after an accepted operation with this effect: nothing else changes, and PSTATE is READY (R19). -/
def State.completed (s : State) (e : Effect) : State :=
  { s.ran e.events with
    pstate := .ready, bf := e.bf, attempt := e.attempt, upc := 0, results := s.results ++ [e.result] }

section
variable (s : State) (e : Effect)

@[simp] theorem State.completed_pins : (s.completed e).pins = s.pins.replay e.events := rfl
@[simp] theorem State.completed_pstate : (s.completed e).pstate = .ready := rfl
@[simp] theorem State.completed_bf : (s.completed e).bf = e.bf := rfl
@[simp] theorem State.completed_attempt : (s.completed e).attempt = e.attempt := rfl
@[simp] theorem State.completed_upc : (s.completed e).upc = 0 := rfl
@[simp] theorem State.completed_trace : (s.completed e).trace = s.trace ++ e.events := rfl
@[simp] theorem State.completed_commands : (s.completed e).commands = s.commands := rfl
@[simp] theorem State.completed_results : (s.completed e).results = s.results ++ [e.result] := rfl

end

theorem answeredBy_writeCycle (o : Oracle) (tr : List PinEvent) (c : Cfg) (v : Nibble) (m : Mode) :
    answeredBy o tr (writeCycle c v m) = true := by
  cases m <;> rfl

theorem answeredBy_byteEvents (o : Oracle) (tr : List PinEvent) (c : Cfg) (b : Byte) (m : Mode) :
    answeredBy o tr (byteEvents c b m) = true := by
  rw [byteEvents, answeredBy_append, answeredBy_writeCycle, answeredBy_writeCycle, Bool.and_self]

/-- Every operation has one of its effects, with reads the device answered; but for INIT it leaves PSTATE alone. -/
theorem operation_effect (c : Cfg) (o : Oracle) (i : Instr) (s : State) : ∃ e : Effect,
    HasEffect c s i e ∧ answeredBy o s.trace e.events = true ∧
    (operation c o i s).2.complete (operation c o i s).1 =
      { s.completed e with pstate := if i = .init then .ready else s.pstate } := by
  cases i with
  | sendNibble v m =>
    rw [operation, sendNibble_eq]
    exact ⟨_, .sendNibble v m, answeredBy_writeCycle o s.trace c v m, rfl⟩
  | sendByte b m =>
    rw [operation, sendByte_eq]
    exact ⟨_, .sendByte b m, answeredBy_byteEvents o s.trace c b m, rfl⟩
  | readBusy =>
    rw [operation, readBusy_eq]
    exact ⟨_, .readBusy _ _, readBusyAnswer_answered c o s.trace, rfl⟩
  | init =>
    obtain ⟨w1, w2, w3, w4, ⟨hw1, hw2, hw3, hw4⟩, hans, hrun⟩ := init_spec c o s
    rw [operation, hrun]
    exact ⟨_, .init hw1 hw2 hw3 hw4, hans, rfl⟩
  | waitReady =>
    obtain ⟨w, u, hw, hans, hrun⟩ := waitReady_spec c o s
    rw [operation, hrun]
    exact ⟨_, .waitReady hw, hans, rfl⟩
  | writeCommand cmd =>
    obtain ⟨w, hw, hans, hrun⟩ := writeCommand_spec c o cmd s
    rw [operation, hrun]
    exact ⟨_, .writeCommand cmd hw, hans, rfl⟩
  | writeChar ch =>
    obtain ⟨w, hw, hans, hrun⟩ := writeChar_spec c o ch s
    rw [operation, hrun]
    exact ⟨_, .writeChar ch hw, hans, rfl⟩
  | setCursor row col =>
    cases hin : cursorInRange row col with
    | true =>
      obtain ⟨w, hw, hans, hrun⟩ := callCommand_spec c o (positioningByte c row col) s.tick.tick
      rw [operation, setCursor, if_pos hin, hrun]
      exact ⟨_, .cursorIssued hin hw, hans, rfl⟩
    | false =>
      refine ⟨_, .cursorDropped hin, rfl, ?_⟩
      simp [operation, setCursor, hin, State.complete, State.completed, State.ran, Pins.replay]
  | clear =>
    obtain ⟨w, hw, hans, hrun⟩ := callCommand_spec c o c.cmdClear s
    rw [operation, clear, hrun]
    exact ⟨_, .clear hw, hans, rfl⟩

/-- The whole next state of an instruction the port answers. -/
theorem execAt_effect {c : Cfg} {o : Oracle} {i : Instr} {s t : State} (h : execAt c o i s = .next t) :
    ∃ e : Effect, HasEffect c s i e ∧ answeredBy o s.trace e.events = true ∧ t = s.completed e := by
  obtain ⟨hacc, ht⟩ := execAt_next h
  obtain ⟨e, he, hans, heq⟩ := operation_effect c o i s
  refine ⟨e, he, hans, ht.trans (heq.trans ?_)⟩
  split
  · rfl
  · next hi => rw [hacc.ready hi]; rfl

/-- The events an answered instruction appended are its set-up for INIT, then whole cycles, reads and delays. -/
theorem isOperationEvents_of_execAt {c : Cfg} {o : Oracle} {i : Instr} {s t : State} {evs : List PinEvent}
    (h : execAt c o i s = .next t) (htr : t.trace = s.trace ++ evs) : IsOperationEvents c i evs := by
  obtain ⟨-, rfl⟩ := execAt_next h
  obtain ⟨evs', hevs, -, htr', -⟩ := operation_performs_blocks c o i s
  rwa [List.append_cancel_left (htr.symm.trans htr')]

/-! ## What the operations keep of the latches -/

/-- `RS` and `DB_OUT` hold a value. -/
def Pins.Driven (p : Pins) : Prop := p.rs.isSome = true ∧ p.dbOut.isSome = true

/-- No event takes a latch's value away. -/
theorem Pins.Driven.apply {p : Pins} (h : p.Driven) (ev : PinEvent) : (p.apply ev).Driven := by
  cases ev with
  | cfgCtlOut l => cases l <;> exact h
  | setBus v => exact ⟨h.1, rfl⟩
  | assert l | deassert l =>
    cases l with
    | rs => exact ⟨rfl, h.2⟩
    | e | rw => exact h
  | _ => exact h

theorem Pins.Driven.replay : ∀ (evs : List PinEvent) {p : Pins}, p.Driven → (p.replay evs).Driven
  | [], _, h => h
  | ev :: evs, _, h => Pins.Driven.replay evs (h.apply ev)

/-- The four `CFG_*` bits. -/
def Pins.cfgBits (p : Pins) : Bool × Bool × Bool × Bool := (p.cfgData, p.cfgE, p.cfgRs, p.cfgRw)

/-- Only the pin set-up of INIT writes the `CFG_*` bits (R20). -/
theorem Pins.cfgBits_replay_blocks {c : Cfg} {evs : List PinEvent} (hb : Blocks c evs) :
    ∀ p : Pins, (p.replay evs).cfgBits = p.cfgBits := by
  induction hb with
  | nil => exact fun _ => rfl
  | write v m _ ih => intro p; rw [Pins.replay_append, ih]; cases m <;> rfl
  | read n1 n2 _ ih => intro p; rw [Pins.replay_append, ih]; rfl
  | delayUs n _ ih => intro p; rw [Pins.replay_append, ih]; rfl
  | delayMs n _ ih => intro p; rw [Pins.replay_append, ih]; rfl

/-- What holds after the pin set-up of INIT, and is kept by cycles, reads and delays, holds after every operation that
starts from it, and after INIT from any latches. -/
theorem IsOperationEvents.replay_of {c : Cfg} {i : Instr} {evs : List PinEvent} (h : IsOperationEvents c i evs)
    {P : Pins → Prop} (hsetup : ∀ p : Pins, P (p.replay (initSetup c)))
    (hblocks : ∀ {evs : List PinEvent} {p : Pins}, Blocks c evs → P p → P (p.replay evs)) {p : Pins}
    (hp : i ≠ .init → P p) : P (p.replay evs) := by
  unfold IsOperationEvents at h
  split at h
  · obtain ⟨rest, hrest, rfl⟩ := h
    rw [Pins.replay_append]
    exact hblocks hrest (hsetup p)
  · next hi => exact hblocks h (hp hi)

theorem IsOperationEvents.atRest {c : Cfg} {i : Instr} {evs : List PinEvent} (h : IsOperationEvents c i evs) {p : Pins}
    (hp : i ≠ .init → p.AtRest) : (p.replay evs).AtRest :=
  h.replay_of (P := Pins.AtRest) (fun q => q.atRest_initSetup c) (fun hb hq => hq.blocks hb) hp

theorem IsOperationEvents.driven {c : Cfg} {i : Instr} {evs : List PinEvent} (h : IsOperationEvents c i evs) {p : Pins}
    (hp : i ≠ .init → p.Driven) : (p.replay evs).Driven :=
  h.replay_of (fun _ => ⟨rfl, rfl⟩) (fun _ hq => hq.replay _) hp

/-! ## What the waits leave in BF and ATTEMPT -/

theorem flagAfter_append (old : Option Bool) (a b : List Answer) :
    flagAfter old (a ++ b) = flagAfter (flagAfter old a) b := List.foldl_append

/-- After at least one poll `BF` is the flag of the last one (R120). -/
theorem flagAfter_eq_getLast? (old : Option Bool) {answers : List Answer} (h : answers ≠ []) :
    flagAfter old answers = answers.getLast?.map fun a => busyFlagOf a.1 := by
  obtain ⟨front, a, rfl⟩ := List.eq_nil_or_concat' answers |>.resolve_left h
  rw [flagAfter_append]
  simp [flagAfter]

/-- `BF` holds a flag and `ATTEMPT` a count of polls that a wait can make (R18, R31). -/
def PollRecorded (c : Cfg) (bf : Option Bool) (attempt : Nat) : Prop :=
  bf.isSome = true ∧ 1 ≤ attempt ∧ attempt ≤ c.nPollMax

theorem pollRecorded_of_wait {c : Cfg} (hn : 1 ≤ c.nPollMax) {w : List Answer} (hw : isWaitOf c.nPollMax w = true)
    (old : Option Bool) : PollRecorded c (flagAfter old w) w.length := by
  have hne := isWaitOf_ne_nil hn hw
  refine ⟨?_, List.length_pos_iff.2 hne, isWaitOf_length_le hw⟩
  rw [flagAfter_wait old hw hne]
  rfl

/-- Every operation keeps `PollRecorded`, and INIT establishes it. -/
theorem HasEffect.pollRecorded {c : Cfg} {s : State} {i : Instr} {e : Effect} (h : HasEffect c s i e)
    (hn : 1 ≤ c.nPollMax) (hs : i ≠ .init → PollRecorded c s.bf s.attempt) : PollRecorded c e.bf e.attempt := by
  cases h with
  | sendNibble | sendByte | cursorDropped => exact hs nofun
  | readBusy => exact ⟨rfl, (hs nofun).2⟩
  | init _ _ _ hw4 => rw [flagAfter_append]; exact pollRecorded_of_wait hn hw4 _
  | waitReady hw | writeCommand _ hw | writeChar _ hw | cursorIssued _ hw | clear hw =>
    exact pollRecorded_of_wait hn hw _

/-! ## The invariant of the whole machine -/

theorem State.Sound.withCommands {c : Cfg} {s : State} (h : s.Sound c) (ws : List CommandWord) :
    ({ s with commands := ws } : State).Sound c :=
  ⟨h.pins_eq, h.idle, h.before_init, h.not_initializing, h.after_init⟩

/-- Every instruction the port answers keeps the invariant, for every device. -/
theorem execAt_keeps_sound {c : Cfg} (hn : 1 ≤ c.nPollMax) {o : Oracle} {i : Instr} {s t : State} (hs : s.Sound c)
    (h : execAt c o i s = .next t) : t.Sound c := by
  obtain ⟨e, he, -, rfl⟩ := execAt_effect h
  have hev : IsOperationEvents c i e.events := isOperationEvents_of_execAt h rfl
  have hready := fun hi : i ≠ .init => hs.after_init ((execAt_next h).1.ready hi)
  refine ⟨?_, rfl, nofun, nofun, fun _ => ?_⟩
  · rw [State.completed_pins, State.completed_trace, hs.pins_eq, Pins.replay_append]
  · have hrest := hev.atRest fun hi => (hready hi).1
    obtain ⟨hrs, hdb⟩ := hev.driven fun hi => (hready hi).2.2.2.2
    obtain ⟨hbf, hlo, hhi⟩ := he.pollRecorded hn fun hi =>
      let ⟨_, hbf, hlo, hhi, _⟩ := hready hi
      ⟨hbf, hlo, hhi⟩
    exact ⟨hrest, hbf, hlo, hhi, hrs, hdb⟩

/-- Settles O44: a step idles or runs one instruction, and every answered instruction keeps the invariant. -/
theorem stepKeepsSound : Obligations.StepKeepsSound := by
  intro s t hs h
  rw [step_eq_stepAt] at h
  obtain ⟨-, rfl⟩ | ⟨w, ws, i, -, -, hexec⟩ := stepAt_next h
  · exact hs
  · exact execAt_keeps_sound Config.one_le_nPollMax (hs.withCommands ws) hexec

/-- Settles O43: at reset TRACE is empty and PSTATE is UNINIT, so the clauses for READY ask nothing. -/
theorem resetIsSound : Obligations.ResetIsSound :=
  fun _ => ⟨rfl, rfl, fun _ => ⟨rfl, rfl, rfl⟩, nofun, nofun⟩

/-! ## The port and reset -/

/-- Settles O9: arm by arm for `exec`, and by it for `step`. -/
theorem execIsTheConfiguredBlock : Obligations.ExecIsTheConfiguredBlock := ⟨exec_eq_execAt, step_eq_stepAt⟩

/-- Settles O13: the values are those of the definition, and INIT alone is accepted in UNINIT. -/
theorem resetState : Obligations.ResetState := by
  refine ⟨rfl, rfl, rfl, rfl, rfl, rfl, rfl, rfl, rfl, rfl, rfl, rfl, rfl, rfl, rfl, fun i => ?_⟩
  rw [exec_eq_execAt, exists_execAt_next_iff]
  exact ⟨fun h => h.eq_init_iff.2 rfl, fun hi => by rw [Accepts, if_pos hi]; exact ⟨rfl, rfl⟩⟩

/-- Settles O58: all of it is read off the effect; the `CFG_*` bits stay because an operation but INIT is made of
cycles, reads and delays. -/
theorem controlStateFrame : Obligations.ControlStateFrame := by
  intro i s t h
  rw [exec_eq_execAt] at h
  obtain ⟨e, -, -, rfl⟩ := execAt_effect h
  refine ⟨rfl, (execAt_next h).1.eq_init_iff, fun hi => ?_, ⟨e.events, rfl, rfl⟩, rfl, rfl, e.result, rfl⟩
  have hb : Blocks Config.cfg e.events := by
    simpa [IsOperationEvents, hi] using isOperationEvents_of_execAt h rfl
  simpa [Pins.cfgBits] using Pins.cfgBits_replay_blocks hb s.pins

/-! ## What INIT leaves -/

theorem Pins.replay_byteEvents (p : Pins) (c : Cfg) (b : Byte) (m : Mode) :
    p.replay (byteEvents c b m) =
      { p with dbOut := some (lo b), rs := some (levelOf m), e := some .deasserted } := by
  cases m <;> rfl

/-- INIT ends with the byte of `CMD_ENTRY_MODE_LTR` in command mode (R140). -/
theorem Pins.replay_initEvents_rs_dbOut (p : Pins) (c : Cfg) (w1 w2 w3 w4 : List Answer) :
    (p.replay (initEvents c w1 w2 w3 w4)).rs = some .deasserted ∧
      (p.replay (initEvents c w1 w2 w3 w4)).dbOut = some (lo c.cmdEntryModeLtr) := by
  simp only [initEvents, commandEvents, Pins.replay_append, Pins.replay_byteEvents, levelOf, and_self]

/-- Settles O34: INIT ends at rest, its last byte gives `RS` and `DB_OUT`, its last wait `BF` and `ATTEMPT`. -/
theorem initLeavesTheReadyState : Obligations.InitLeavesTheReadyState := by
  intro c o s t hn h
  obtain ⟨e, he, hans, rfl⟩ := execAt_effect h
  obtain ⟨re, rrw, rdir, rdata, rcfgE, rcfgRs, rcfgRw⟩ :=
    (isOperationEvents_of_execAt h rfl).atRest (p := s.pins) (absurd rfl)
  cases he with
  | @init w1 w2 w3 w4 hw1 hw2 hw3 hw4 =>
    obtain ⟨hrs, hdb⟩ := s.pins.replay_initEvents_rs_dbOut c w1 w2 w3 w4
    have hbf : flagAfter s.bf (w1 ++ w2 ++ w3 ++ w4) = w4.getLast?.map fun a => busyFlagOf a.1 := by
      rw [flagAfter_append, flagAfter_eq_getLast? _ (isWaitOf_ne_nil hn hw4)]
    have hsome : (flagAfter s.bf (w1 ++ w2 ++ w3 ++ w4)).isSome = true := by
      rw [flagAfter_append]
      exact (pollRecorded_of_wait hn hw4 _).1
    exact ⟨re, rrw, hrs, rdir, hdb, rdata, rcfgE, rcfgRs, rcfgRw, rfl, w1, w2, w3, w4,
      by simp [hw1, hw2, hw3, hw4], rfl, hans, hbf, hsome, rfl⟩

/-! ## Reads and the device -/

/-- The answers of a READ_BUSY are those the device gives at its two read points (R84). -/
theorem eq_readBusyAnswer {c : Cfg} {o : Oracle} {tr : List PinEvent} {n1 n2 : Nibble}
    (h : answeredBy o tr (readBusyEvents c n1 n2) = true) : (n1, n2) = readBusyAnswer c o tr := by
  simp [answeredBy, readBusyEvents, readPulseEvents, readPulseOpen, readPulseClose] at h
  obtain ⟨rfl, rfl⟩ := h
  simp [readBusyAnswer, readBusyHead, readPulseOpen, readPulseClose]

/-- Settles O22: the first answer enters the state as `BF` and as the result, and the second not at all. -/
theorem onlyTheTopBitOfAReadMatters : Obligations.OnlyTheTopBitOfAReadMatters := by
  intro c o o' s t t' hbit h h'
  obtain ⟨e, he, hans, rfl⟩ := execAt_effect h
  obtain ⟨e', he', hans', rfl⟩ := execAt_effect h'
  cases he with
  | readBusy n1 n2 =>
    cases he' with
    | readBusy m1 m2 =>
      have hflag : busyFlagOf n1 = busyFlagOf m1 := by
        obtain ⟨rfl, -⟩ := Prod.mk.inj (eq_readBusyAnswer hans)
        obtain ⟨rfl, -⟩ := Prod.mk.inj (eq_readBusyAnswer hans')
        exact hbit
      simp only [State.completed, State.ran, Pins.replay_readBusyEvents, hflag]

/-! ## The device and the trace alone decide what an operation does -/

/-- The answers of a wait are decided by the device, whatever the operation does after it. -/
theorem answers_unique_of_append {c : Cfg} {o : Oracle} {tr evs evs' : List PinEvent} {w w' : List Answer}
    (hw : isWaitOf c.nPollMax w = true) (hw' : isWaitOf c.nPollMax w' = true)
    (h : answeredBy o tr (waitEvents c w ++ evs) = true) (h' : answeredBy o tr (waitEvents c w' ++ evs') = true) :
    w = w' := by
  rw [answeredBy_append, Bool.and_eq_true] at h h'
  exact answers_unique c o c.nPollMax 0 tr w w' hw hw' h.1 h'.1

/-- So are those of a command, and both runs stand at the same point of the trace after it. -/
theorem commandEvents_unique {c : Cfg} {o : Oracle} {tr evs evs' : List PinEvent} {w w' : List Answer} {cmd : Byte}
    (hw : isWaitOf c.nPollMax w = true) (hw' : isWaitOf c.nPollMax w' = true)
    (h : answeredBy o tr (commandEvents c w cmd ++ evs) = true)
    (h' : answeredBy o tr (commandEvents c w' cmd ++ evs') = true) :
    w = w' ∧ answeredBy o (tr ++ commandEvents c w cmd) evs = true ∧
      answeredBy o (tr ++ commandEvents c w cmd) evs' = true := by
  rw [answeredBy_append, Bool.and_eq_true] at h h'
  obtain rfl := answers_unique_of_append hw hw' h.1 h'.1
  exact ⟨rfl, h.2, h'.2⟩

/-- From the same trace and with the same device an operation has the same events and the same result, whatever else the
two states hold. -/
theorem HasEffect.unique {c : Cfg} {o : Oracle} {s s' : State} {i : Instr} {e e' : Effect} {tr : List PinEvent}
    (h : HasEffect c s i e) (h' : HasEffect c s' i e') (hans : answeredBy o tr e.events = true)
    (hans' : answeredBy o tr e'.events = true) : e.events = e'.events ∧ e.result = e'.result := by
  cases h with
  | sendNibble | sendByte => cases h'; exact ⟨rfl, rfl⟩
  | readBusy n1 n2 =>
    cases h' with
    | readBusy m1 m2 =>
      obtain ⟨rfl, rfl⟩ := Prod.mk.inj ((eq_readBusyAnswer hans).trans (eq_readBusyAnswer hans').symm)
      exact ⟨rfl, rfl⟩
  | init hw1 hw2 hw3 hw4 =>
    cases h' with
    | init hv1 hv2 hv3 hv4 =>
      dsimp only at hans hans'
      rw [initEvents_eq, answeredBy_append, Bool.and_eq_true] at hans hans'
      obtain ⟨rfl, h, h'⟩ := commandEvents_unique hw1 hv1 hans.2 hans'.2
      obtain ⟨rfl, h, h'⟩ := commandEvents_unique hw2 hv2 h h'
      obtain ⟨rfl, h, h'⟩ := commandEvents_unique hw3 hv3 h h'
      rw [answeredBy_append, Bool.and_eq_true] at h h'
      obtain rfl := answers_unique_of_append hw4 hv4 h.2 h'.2
      exact ⟨rfl, rfl⟩
  | @waitReady w hw =>
    cases h' with
    | @waitReady w' hw' =>
      obtain rfl := answers_unique c o _ 0 tr w w' hw hw' hans hans'
      exact ⟨rfl, rfl⟩
  | writeCommand _ hw | writeChar _ hw | clear hw =>
    cases h'
    next hw' =>
      obtain rfl := answers_unique_of_append hw hw' hans hans'
      exact ⟨rfl, rfl⟩
  | cursorIssued hin hw =>
    cases h' with
    | cursorIssued _ hw' =>
      obtain rfl := answers_unique_of_append hw hw' hans hans'
      exact ⟨rfl, rfl⟩
    | cursorDropped hout => simp [hin] at hout
  | cursorDropped hout =>
    cases h' with
    | cursorIssued hin => simp [hin] at hout
    | cursorDropped => exact ⟨rfl, rfl⟩

/-- Settles O56: the port looks at UPC and PSTATE alone, and the operation's events and result are decided by the device
and the trace. -/
theorem eventsDoNotDependOnLatches : Obligations.EventsDoNotDependOnLatches := by
  intro c o i s t p f n ws rs h
  have hacc : Accepts i { s with pins := p, bf := f, attempt := n, commands := ws, results := rs } :=
    (execAt_next h).1
  obtain ⟨t', h'⟩ := (exists_execAt_next_iff c o i _).2 hacc
  obtain ⟨e, he, hans, rfl⟩ := execAt_effect h
  obtain ⟨e', he', hans', rfl⟩ := execAt_effect h'
  obtain ⟨hev, hres⟩ := he'.unique he hans' hans
  exact ⟨_, e.result, h', congrArg (s.trace ++ ·) hev, rfl, congrArg (rs ++ [·]) hres, rfl, rfl⟩

/-! ## Which latches the events write -/

/-- Some event of the list writes the latch. -/
def Writes (evs : List PinEvent) (l : Latch) : Prop := ∃ ev ∈ evs, l ∈ latchesOf ev

theorem writes_append (a b : List PinEvent) (l : Latch) : Writes (a ++ b) l ↔ Writes a l ∨ Writes b l := by
  simp only [Writes, List.mem_append, or_and_right, exists_or]

theorem writes_writeCycle (c : Cfg) (v : Nibble) (m : Mode) (l : Latch) :
    Writes (writeCycle c v m) l ↔ l ∈ [.dbOut, .e, .rs] := by
  cases m <;> cases l <;> simp [Writes, writeCycle, drive, levelOf, latchesOf]

theorem writes_byteEvents (c : Cfg) (b : Byte) (m : Mode) (l : Latch) :
    Writes (byteEvents c b m) l ↔ l ∈ [.dbOut, .e, .rs] := by
  rw [byteEvents, writes_append, writes_writeCycle, writes_writeCycle, or_self]

theorem writes_readBusyEvents (c : Cfg) (n1 n2 : Nibble) (l : Latch) :
    Writes (readBusyEvents c n1 n2) l ↔ l ∈ [.e, .rs, .rw, .dir] := by
  cases l <;> simp [Writes, readBusyEvents, readPulseEvents, readPulseOpen, readPulseClose, latchesOf]

theorem not_writes_pollDelay (c : Cfg) (k : Nat) (l : Latch) : ¬ Writes (pollDelay c k) l := by
  unfold pollDelay
  split <;> simp [Writes, latchesOf]

/-- Polls write what one poll writes. -/
theorem writes_pollEvents (c : Cfg) (l : Latch) : ∀ (answers : List Answer) (k : Nat), answers ≠ [] →
    (Writes (pollEvents c k answers) l ↔ l ∈ [.e, .rs, .rw, .dir])
  | [], _, h => absurd rfl h
  | a :: rest, k, _ => by
    have hdelay : ¬ Writes (if busyFlagOf a.1 then pollDelay c (k + 1) else []) l := by
      split
      · exact not_writes_pollDelay c (k + 1) l
      · simp [Writes]
    rw [pollEvents, writes_append, writes_append, writes_readBusyEvents, or_iff_right hdelay]
    cases rest with
    | nil => simp [pollEvents, Writes]
    | cons b rest => rw [writes_pollEvents c l (b :: rest) (k + 1) (List.cons_ne_nil b rest), or_self]

theorem writes_waitEvents {c : Cfg} (hn : 1 ≤ c.nPollMax) {w : List Answer} (hw : isWaitOf c.nPollMax w = true)
    (l : Latch) : Writes (waitEvents c w) l ↔ l ∈ [.e, .rs, .rw, .dir] :=
  writes_pollEvents c l w 0 (isWaitOf_ne_nil hn hw)

theorem writes_waitThenByte {c : Cfg} (hn : 1 ≤ c.nPollMax) {w : List Answer} (hw : isWaitOf c.nPollMax w = true)
    (b : Byte) (m : Mode) (l : Latch) :
    Writes (waitEvents c w ++ byteEvents c b m) l ↔ l ∈ [.dbOut, .e, .rs, .rw, .dir] := by
  rw [writes_append, writes_waitEvents hn hw, writes_byteEvents]
  cases l <;> decide

/-- The pin set-up of INIT writes every latch already. -/
theorem writes_initEvents (c : Cfg) (w1 w2 w3 w4 : List Answer) (l : Latch) :
    Writes (initEvents c w1 w2 w3 w4) l ↔ l ∈ [.dbOut, .e, .rs, .rw, .dir, .cfg] := by
  have hsetup : Writes (initSetup c) l := by cases l <;> simp [Writes, initSetup, latchesOf]
  rw [initEvents_eq, List.append_assoc, writes_append]
  exact iff_of_true (.inl hsetup) (by cases l <;> decide)

/-- The latches an effect writes are the row of the table of R16. -/
theorem HasEffect.writes_iff {c : Cfg} {s : State} {i : Instr} {e : Effect} (h : HasEffect c s i e)
    (hn : 1 ≤ c.nPollMax) (l : Latch) : Writes e.events l ↔ l ∈ latchesWrittenBy i := by
  cases h with
  | sendNibble v m => exact writes_writeCycle c v m l
  | sendByte b m => exact writes_byteEvents c b m l
  | readBusy n1 n2 => exact writes_readBusyEvents c n1 n2 l
  | init => exact writes_initEvents c _ _ _ _ l
  | waitReady hw => exact writes_waitEvents hn hw l
  | writeCommand _ hw | writeChar _ hw | clear hw => exact writes_waitThenByte hn hw _ _ l
  | cursorIssued hin hw =>
    rw [latchesWrittenBy, if_pos hin]
    exact writes_waitThenByte hn hw _ _ l
  | cursorDropped hout => simp [latchesWrittenBy, hout, Writes]

/-- Settles O53: the effect's events write exactly the latches of the operation's row. -/
theorem latchTable : Obligations.LatchTable := by
  intro c o i s t hn h
  obtain ⟨e, he, -, rfl⟩ := execAt_effect h
  exact ⟨e.events, rfl, he.writes_iff hn⟩

end Sys2Proof.Machine
end

section
/-! PROOFS of the family of the encoding (spec/30_encoding.md): the decoder and the encoder are inverse to each other
(`decode_eq_ok_iff`), and the rows of R62 and the run of a string's words rest on that; the illegal words of R71 are
those of the decoder's branches; then the bus cycles of the blocks that every operation is made of (R64). -/

namespace Sys2Proof

/-! ## The formats (R61) -/

theorem decode_assembleWord (op a b : Byte) : decode (assembleWord op a b) = decodeFields op a b := by
  rw [decode, op_assembleWord, a_assembleWord, b_assembleWord]

section
variable {a b : Byte} {i j : Instr}

theorem decodeZ_eq_ok_iff : decodeZ i a b = .ok j ↔ a = 0#8 ∧ b = 0#8 ∧ i = j := by
  unfold decodeZ
  split
  · next ha => simp [ha]
  · next ha =>
    split
    · next hb => simp [hb]
    · next hb => simp [not_not.1 ha, not_not.1 hb]

theorem decodeNM_eq_ok_iff {mk : Nibble → Mode → Instr} :
    decodeNM mk a b = .ok j ↔ ∃ v m, a = 0#4 ++ v ∧ b = modeByte m ∧ mk v m = j := by
  unfold decodeNM
  constructor
  · intro h
    split at h
    · cases h
    · next ha =>
      split at h
      · next hb =>
        exact ⟨_, _, (nibbleByte_of_high a (not_not.1 ha)).symm, (modeByte_modeOfByte b hb).symm, Except.ok.inj h⟩
      · cases h
  · rintro ⟨v, m, rfl, rfl, rfl⟩
    simp only [nibbleByte_high, nibbleByte_low, modeBitsZero_modeByte, modeOfByte_modeByte, ne_eq, not_true, if_true,
      if_false]

theorem decodeBM_eq_ok_iff {mk : Byte → Mode → Instr} :
    decodeBM mk a b = .ok j ↔ ∃ m, b = modeByte m ∧ mk a m = j := by
  unfold decodeBM
  constructor
  · intro h
    split at h
    · next hb => exact ⟨_, (modeByte_modeOfByte b hb).symm, Except.ok.inj h⟩
    · cases h
  · rintro ⟨m, rfl, rfl⟩
    rw [if_pos (modeBitsZero_modeByte m), modeOfByte_modeByte]

theorem decodeB_eq_ok_iff {mk : Byte → Instr} : decodeB mk a b = .ok j ↔ b = 0#8 ∧ mk a = j := by
  unfold decodeB
  split
  · next hb => simp [hb]
  · next hb => simp [not_not.1 hb]

end

/-! ## Decoder and encoder -/

/-- Each format gives back the operands that its operation's word was assembled from. -/
theorem decode_encode (i : Instr) : decode (encode i) = .ok i := by
  cases i <;> rw [encode, decode_assembleWord]
  case sendNibble v m => exact decodeNM_eq_ok_iff.2 ⟨v, m, rfl, rfl, rfl⟩
  case sendByte v m => exact decodeBM_eq_ok_iff.2 ⟨m, rfl, rfl⟩
  all_goals rfl

theorem encode_of_decodeZ {op a b : Byte} {i j : Instr} (hi : encode i = assembleWord op 0#8 0#8)
    (h : decodeZ i a b = .ok j) : encode j = assembleWord op a b := by
  obtain ⟨rfl, rfl, rfl⟩ := decodeZ_eq_ok_iff.1 h
  exact hi

theorem encode_of_decodeB {op a b : Byte} {mk : Byte → Instr} {j : Instr}
    (hmk : ∀ x, encode (mk x) = assembleWord op x 0#8) (h : decodeB mk a b = .ok j) :
    encode j = assembleWord op a b := by
  obtain ⟨rfl, rfl⟩ := decodeB_eq_ok_iff.1 h
  exact hmk a

/-- Branch by branch, what the format asks of the operand bytes makes the word that of the operation. -/
theorem encode_of_decodeFields {op a b : Byte} {i : Instr} (h : decodeFields op a b = .ok i) :
    encode i = assembleWord op a b := by
  unfold decodeFields at h
  split_ifs at h <;> subst op
  · obtain ⟨v, m, rfl, rfl, rfl⟩ := decodeNM_eq_ok_iff.1 h
    rfl
  · obtain ⟨m, rfl, rfl⟩ := decodeBM_eq_ok_iff.1 h
    rfl
  · exact encode_of_decodeZ rfl h
  · exact encode_of_decodeZ rfl h
  · exact encode_of_decodeZ rfl h
  · exact encode_of_decodeB (fun _ => rfl) h
  · exact encode_of_decodeB (fun _ => rfl) h
  · obtain rfl := Except.ok.inj h
    rfl
  · exact encode_of_decodeZ rfl h

/-- One word for each operation, one operation for each word that decodes (R71, R73). -/
theorem decode_eq_ok_iff {w : CommandWord} {i : Instr} : decode w = .ok i ↔ encode i = w :=
  ⟨fun h => (encode_of_decodeFields h).trans (assembleWord_fields w), fun h => h ▸ decode_encode i⟩

/-- Settles O2: the round trip from the operation. -/
theorem decodeEncodeRoundTrip : Obligations.DecodeEncodeRoundTrip := decode_encode

/-- Settles O3: the round trip from the word. -/
theorem encodeDecodeRoundTrip : Obligations.EncodeDecodeRoundTrip := fun _ _ h => decode_eq_ok_iff.1 h

/-- Settles O1: each word is evaluated. -/
theorem writtenWordsDecode : Obligations.WrittenWordsDecode := by
  unfold Obligations.WrittenWordsDecode
  decide

/-! ## The opcode map (R62) -/

theorem exists_row (i : Instr) : Laws.RowMatch.Statement i := by
  cases i with
  | sendNibble v m => exact Laws.RowMatch.sendNibble v m
  | sendByte v m => exact Laws.RowMatch.sendByte v m
  | readBusy => exact Laws.RowMatch.readBusy
  | init => exact Laws.RowMatch.init
  | waitReady => exact Laws.RowMatch.waitReady
  | writeCommand cmd => exact Laws.RowMatch.writeCommand cmd
  | writeChar ch => exact Laws.RowMatch.writeChar ch
  | setCursor row col => exact Laws.RowMatch.setCursor row col
  | clear => exact Laws.RowMatch.clear

theorem row_eq_of_mnemonic_eq : ∀ r ∈ opcodeTable, ∀ r' ∈ opcodeTable, r.mnemonic = r'.mnemonic → r = r' := by
  decide

/-- The row that carries an operation's mnemonic matches its word. -/
theorem row_matches_encode {r : OpcodeRow} (hr : r ∈ opcodeTable) {i : Instr} (hi : i.mnemonic = r.mnemonic) :
    encode i &&& r.mask = r.pattern := by
  obtain ⟨r', hr', hmn, hmatch⟩ := exists_row i
  obtain rfl := row_eq_of_mnemonic_eq r' hr' r hr (hmn.trans hi)
  exact hmatch

/-- A word with these fields is the word of an operation that has such a word. -/
theorem encode_eq_of_fields {w : CommandWord} {i : Instr} {op a b : Byte} (hi : encode i = assembleWord op a b)
    (hop : w.op = op) (ha : w.a = a) (hb : w.b = b) : encode i = w := by
  subst hop ha hb
  rw [hi, assembleWord_fields]

theorem eq_of_and_FF {x y : Byte} (h : x &&& 0xFF#8 = y) : x = y := (and_FF_eq x).symm.trans h

/-- What a row's mask and match leave of each format's operand bytes are the operands of an operation. -/
theorem exists_encode_of_row_matches {r : OpcodeRow} (hr : r ∈ opcodeTable) {w : CommandWord}
    (h : w &&& r.mask = r.pattern) : ∃ i : Instr, encode i = w ∧ i.mnemonic = r.mnemonic := by
  rw [and_eq_iff_fields] at h
  simp only [opcodeTable, List.mem_cons, List.not_mem_nil, or_false] at hr
  obtain ⟨hop, ha, hb⟩ := h
  rcases hr with rfl | rfl | rfl | rfl | rfl | rfl | rfl | rfl | rfl
  all_goals replace hop := eq_of_and_FF hop
  · have hv := nibbleByte_of_high w.a ((and_F0_iff w.a).1 ha)
    have hm := modeByte_modeOfByte w.b ((and_FE_iff w.b).1 hb)
    exact ⟨.sendNibble (w.a.extractLsb' 0 4) (modeOfByte w.b), encode_eq_of_fields rfl hop hv.symm hm.symm, rfl⟩
  · have hm := modeByte_modeOfByte w.b ((and_FE_iff w.b).1 hb)
    exact ⟨.sendByte w.a (modeOfByte w.b), encode_eq_of_fields rfl hop rfl hm.symm, rfl⟩
  · exact ⟨.readBusy, encode_eq_of_fields rfl hop (eq_of_and_FF ha) (eq_of_and_FF hb), rfl⟩
  · exact ⟨.init, encode_eq_of_fields rfl hop (eq_of_and_FF ha) (eq_of_and_FF hb), rfl⟩
  · exact ⟨.waitReady, encode_eq_of_fields rfl hop (eq_of_and_FF ha) (eq_of_and_FF hb), rfl⟩
  · exact ⟨.writeCommand w.a, encode_eq_of_fields rfl hop rfl (eq_of_and_FF hb), rfl⟩
  · exact ⟨.writeChar w.a, encode_eq_of_fields rfl hop rfl (eq_of_and_FF hb), rfl⟩
  · exact ⟨.setCursor w.a w.b, encode_eq_of_fields rfl hop rfl rfl, rfl⟩
  · exact ⟨.clear, encode_eq_of_fields rfl hop (eq_of_and_FF ha) (eq_of_and_FF hb), rfl⟩

theorem decode_eq_error_of_not_ok {w : CommandWord} (h : ∀ i, decode w ≠ .ok i) : ∃ e, decode w = .error e := by
  cases hd : decode w with
  | error e => exact ⟨e, rfl⟩
  | ok i => exact absurd hd (h i)

/-- Settles O4: by `decode_eq_ok_iff` a row's words are those of the operations with its mnemonic, and no two rows share
one. -/
theorem decodeAgreesWithOpcodeTable : Obligations.DecodeAgreesWithOpcodeTable := by
  refine ⟨fun w r hr => ?_, fun w r r' hr hr' h h' => ?_, fun w h => ?_, fun w i h => ?_⟩
  · simp only [decode_eq_ok_iff]
    refine ⟨exists_encode_of_row_matches hr, ?_⟩
    rintro ⟨i, rfl, hi⟩
    exact row_matches_encode hr hi
  · obtain ⟨i, rfl, hi⟩ := exists_encode_of_row_matches hr h
    obtain ⟨i', heq, hi'⟩ := exists_encode_of_row_matches hr' h'
    obtain rfl : i' = i := Except.ok.inj ((decode_eq_ok_iff.2 heq).symm.trans (decode_encode i))
    exact row_eq_of_mnemonic_eq r hr r' hr' (hi.symm.trans hi')
  · refine decode_eq_error_of_not_ok fun i hi => ?_
    obtain ⟨r, hr, -, hmatch⟩ := exists_row i
    exact h r hr (decode_eq_ok_iff.1 hi ▸ hmatch)
  · obtain rfl := decode_eq_ok_iff.1 h
    cases i <;> rw [encode, op_assembleWord] <;> rfl

/-! ## The illegal words (R71) -/

theorem modeBitsZero_iff (b : Byte) : modeBitsZero b = true ↔ b.extractLsb' 1 7 = 0#7 := beq_iff_eq

section
variable {a b : Byte}

theorem decodeZ_error_iff {i : Instr} : (∃ e, decodeZ i a b = .error e) ↔ a ≠ 0#8 ∨ b ≠ 0#8 := by
  unfold decodeZ
  split_ifs with ha hb
  · simp [ha]
  · simp [hb]
  · simp [not_not.1 ha, not_not.1 hb]

theorem decodeNM_error_iff {mk : Nibble → Mode → Instr} :
    (∃ e, decodeNM mk a b = .error e) ↔ a.extractLsb' 4 4 ≠ 0#4 ∨ b.extractLsb' 1 7 ≠ 0#7 := by
  unfold decodeNM
  split_ifs with ha hb
  · simp [ha]
  · simp [not_not.1 ha, (modeBitsZero_iff b).1 hb]
  · simpa using .inr (mt (modeBitsZero_iff b).2 hb)

theorem decodeBM_error_iff {mk : Byte → Mode → Instr} :
    (∃ e, decodeBM mk a b = .error e) ↔ b.extractLsb' 1 7 ≠ 0#7 := by
  unfold decodeBM
  split_ifs with hb
  · simp [(modeBitsZero_iff b).1 hb]
  · simpa using mt (modeBitsZero_iff b).2 hb

theorem decodeB_error_iff {mk : Byte → Instr} : (∃ e, decodeB mk a b = .error e) ↔ b ≠ 0#8 := by
  unfold decodeB
  split_ifs with hb
  · simp [hb]
  · simp [not_not.1 hb]

end

/-- The cases of R71 on the three fields of a word. -/
def IllegalFields (op a b : Byte) : Prop :=
  op ∉ [0x01#8, 0x02#8, 0x03#8, 0x10#8, 0x11#8, 0x12#8, 0x13#8, 0x14#8, 0x15#8] ∨
    op ∈ [0x03#8, 0x10#8, 0x11#8, 0x15#8] ∧ (a ≠ 0#8 ∨ b ≠ 0#8) ∨
    op = 0x01#8 ∧ a.extractLsb' 4 4 ≠ 0#4 ∨
    op ∈ [0x01#8, 0x02#8] ∧ b.extractLsb' 1 7 ≠ 0#7 ∨
    op ∈ [0x12#8, 0x13#8] ∧ b ≠ 0#8

/-- Each listed `op` selects the format whose case of R71 it is. -/
theorem decodeFields_error_iff (op a b : Byte) : (∃ e, decodeFields op a b = .error e) ↔ IllegalFields op a b := by
  unfold decodeFields IllegalFields
  split_ifs
  · subst op; simp [decodeNM_error_iff]
  · subst op; simp [decodeBM_error_iff]
  · subst op; simp [decodeZ_error_iff]
  · subst op; simp [decodeZ_error_iff]
  · subst op; simp [decodeZ_error_iff]
  · subst op; simp [decodeB_error_iff]
  · subst op; simp [decodeB_error_iff]
  · subst op; simp
  · subst op; simp [decodeZ_error_iff]
  · simp [*]

end Sys2Proof

namespace Sys2Proof.Machine

/-! ## Steps on command words -/

/-- A word that does not decode is refused, whatever the state (R71, R158). -/
theorem stepAt_cons_illegal (c : Cfg) (o : Oracle) {s : State} {w : CommandWord} {ws : List CommandWord}
    {e : DecodeError} (hs : s.commands = w :: ws) (hd : decode w = .error e) :
    stepAt c o s = .refused .illegalWord := by
  simp [stepAt, nextCommand, hs, hd, refusalOfWord]

/-- Settles O5: the decoder's branches are the cases of R71, and a step refuses what does not decode. -/
theorem illegalWordsAreThoseOfTheRule : Obligations.IllegalWordsAreThoseOfTheRule := by
  refine ⟨fun w => decodeFields_error_iff w.op w.a w.b, fun w ws e s h => ?_, fun row col => ?_⟩
  · rw [step_eq_stepAt]
    exact stepAt_cons_illegal _ _ rfl h
  · exact decode_encode (.setCursor row col)

/-- Settles O8: `step` and `exec` are `stepAt` and `execAt` at the model's configuration and device. -/
theorem stepRunsDecodedOperation : Obligations.StepRunsDecodedOperation := by
  refine ⟨fun s w ws i hs hd => ?_, fun s hs => ?_⟩
  · rw [step_eq_stepAt, exec_eq_execAt, stepAt_cons _ _ hs hd]
  · rw [step, nextCommand, hs]
    rfl

/-! ## The words of a string (R75, R130) -/

/-- Settles O7: every byte is a well-formed operand, and is the operand its number stands for. -/
theorem stringExpandsToCharWords : Obligations.StringExpandsToCharWords := by
  refine ⟨fun s => ?_, rfl⟩
  have hwf : (Call.writeString (s.map BitVec.toNat)).wellFormed = true := by
    simpa [Call.wellFormed, isByte] using fun b (_ : b ∈ s) => b.isLt
  rw [Call.words, if_pos hwf]
  simp [Call.expand]

/-- `s` with these command words waiting and these results returned: the two fields of the model's own. -/
def State.withPort (s : State) (ws : List CommandWord) (rs : List Result) : State :=
  { s with commands := ws, results := rs }

/-- WRITE_CHAR does not look at the waiting words and the results: the device's answers are decided by the trace. -/
theorem writeChar_withPort (c : Cfg) (o : Oracle) (b : Byte) (s : State) (ws : List CommandWord) (rs : List Result) :
    writeChar c o b (s.withPort ws rs) = (writeChar c o b s).withPort ws rs := by
  obtain ⟨w, hw, hans, hrun⟩ := writeChar_spec c o b s
  obtain ⟨w', hw', hans', hrun'⟩ := writeChar_spec c o b (s.withPort ws rs)
  obtain rfl := answers_unique_of_append hw hw' hans hans'
  rw [hrun, hrun']
  rfl

theorem accepting_writeChar {s : State} (h : s.Accepting) (c : Cfg) (o : Oracle) (b : Byte) :
    ((writeChar c o b s).goto 0).Accepting := by
  obtain ⟨w, -, -, hrun⟩ := writeChar_spec c o b s
  rw [hrun]
  exact ⟨rfl, h.2⟩

theorem State.goto_upc_self (s : State) : s.goto s.upc = s := rfl

/-- One pass of the loop of WRITE_STRING is one WRITE_CHAR, and WRITE_STRING of the other bytes follows. -/
theorem writeString_cons {s : State} (h : s.upc = 0) (c : Cfg) (o : Oracle) (b : Byte) (bytes : List Byte) :
    writeString c o (b :: bytes) s = writeString c o bytes ((writeChar c o b s).goto 0) := by
  have hs : s.tick.tick.goto 0 = s := h ▸ s.goto_upc_self
  rw [writeString, stringLoop, State.call, hs]
  rfl

/-- A step on the word of WRITE_CHAR consumes it, does what WRITE_CHAR does and returns without a value. -/
theorem stepAt_writeChar {s : State} (h : s.Accepting) (c : Cfg) (o : Oracle) (b : Byte) (ws : List CommandWord)
    (rs : List Result) :
    stepAt c o (s.withPort (encode (.writeChar b) :: ws) rs) =
      .next (((writeChar c o b s).goto 0).withPort ws (rs ++ [.done])) := by
  have hacc : Accepts (.writeChar b) (s.withPort ws rs) := h
  rw [stepAt_cons c o rfl (decode_encode _)]
  refine (execAt_accepted c o hacc).trans ?_
  rw [operation, writeChar_withPort]
  rfl

/-- Byte by byte, the words of a string do what WRITE_STRING does. -/
theorem runAt_charWords (c : Cfg) (o : Oracle) (ws : List CommandWord) (bytes : List Byte) :
    ∀ (s : State) (rs : List Result), s.Accepting →
      runAt c o bytes.length (s.withPort ((bytes.map fun b => encode (.writeChar b)) ++ ws) rs) =
        .next (((writeString c o bytes s).goto 0).withPort ws (rs ++ bytes.map fun _ => Result.done)) := by
  induction bytes with
  | nil =>
    intro s rs h
    have hs : (writeString c o [] s).goto 0 = s := h.1 ▸ s.goto_upc_self
    rw [hs, List.map_nil, List.map_nil, List.append_nil]
    rfl
  | cons b bytes ih =>
    intro s rs h
    rw [List.map_cons, List.cons_append, List.length_cons, runAt, stepAt_writeChar h]
    dsimp only
    rw [ih _ _ (accepting_writeChar h c o b), writeString_cons h.1, List.append_assoc]
    rfl

/-- Settles O38: the run of the words, with the results that stood before. -/
theorem stringRunsAsItsWords : Obligations.StringRunsAsItsWords :=
  fun c o bytes ws s h => runAt_charWords c o ws bytes s s.results h

/-! ## Nibbles (R65) -/

theorem toNat_and_0F (b : Byte) : (b &&& 0xF#8).toNat = b.toNat % 16 :=
  Nat.and_two_pow_sub_one_eq_mod b.toNat 4

theorem hi_toNat (b : Byte) : (hi b).toNat = b.toNat / 16 := by
  rw [hi, BitVec.toNat_setWidth, toNat_and_0F, BitVec.toNat_ushiftRight, Nat.shiftRight_eq_div_pow]
  have := b.isLt
  omega

theorem lo_toNat (b : Byte) : (lo b).toNat = b.toNat % 16 := by
  rw [lo, BitVec.toNat_setWidth, toNat_and_0F, Nat.mod_mod]

theorem hi_eq_extractLsb' (b : Byte) : hi b = b.extractLsb' 4 4 := by
  apply BitVec.eq_of_toNat_eq
  rw [hi_toNat, BitVec.extractLsb'_toNat, Nat.shiftRight_eq_div_pow]
  have := b.isLt
  omega

theorem lo_eq_extractLsb' (b : Byte) : lo b = b.extractLsb' 0 4 := by
  apply BitVec.eq_of_toNat_eq
  rw [lo_toNat, BitVec.extractLsb'_toNat, Nat.shiftRight_zero]

theorem joinNibbles_toNat (n1 n2 : Nibble) : (joinNibbles n1 n2).toNat = n1.toNat * 16 + n2.toNat := by
  rw [joinNibbles, BitVec.toNat_append, ← Nat.shiftLeft_add_eq_or_of_lt n2.isLt, Nat.shiftLeft_eq]

/-- Settles O15: the parts are the quotient and the remainder by 16, and the top bit of the high nibble is that of the
byte. -/
theorem nibbleSplitAndJoin : Obligations.NibbleSplitAndJoin := by
  refine ⟨fun b => ?_, fun n1 n2 => ⟨rfl, ?_⟩⟩
  · have hb := b.isLt
    have hhi := hi_toNat b
    have hlo := lo_toNat b
    have hsum : b.toNat = (hi b).toNat * 16 + (lo b).toNat := by omega
    have hjoin : joinNibbles (hi b) (lo b) = b :=
      BitVec.eq_of_toNat_eq ((joinNibbles_toNat _ _).trans hsum.symm)
    refine ⟨hi_eq_extractLsb' b, lo_eq_extractLsb' b, hjoin, hsum, by omega, by omega, ?_, ?_⟩
    · rw [toNat_and_0F, BitVec.toNat_ushiftRight, Nat.shiftRight_eq_div_pow]
      omega
    · rw [toNat_and_0F, hlo]
  · rw [joinNibbles, BitVec.getLsbD_append]
    rfl

/-! ## Bus cycles (R64) -/

theorem busCycles_append (a b : List PinEvent) :
    ∀ p : Pins, busCycles p (a ++ b) = busCycles p a ++ busCycles (p.replay a) b := by
  induction a with
  | nil => exact fun _ => rfl
  | cons ev a ih =>
    intro p
    exact (congrArg (_ ++ ·) (ih (p.apply ev))).trans (List.append_assoc ..).symm

/-- A write nibble cycle at rest is one write cycle on the wire (R100). -/
theorem busCycles_writeCycle {p : Pins} (h : p.AtRest) (c : Cfg) (v : Nibble) (m : Mode) :
    busCycles p (writeCycle c v m) = [.write (some (levelOf m)) (some v)] := by
  obtain ⟨he, hrw, -⟩ := h
  cases m <;> simp [busCycles, writeCycle, drive, levelOf, Pins.apply, Pins.setLine, he, hrw]

/-- A busy-flag read at rest is two read cycles of the instruction register's side (R104). -/
theorem busCycles_readBusyEvents {p : Pins} (h : p.AtRest) (c : Cfg) (n1 n2 : Nibble) :
    busCycles p (readBusyEvents c n1 n2) = [.read (some .deasserted) n1, .read (some .deasserted) n2] := by
  obtain ⟨he, -⟩ := h
  simp [busCycles, readBusyEvents, readPulseEvents, readPulseOpen, readPulseClose, Pins.apply, Pins.setLine, he]

/-- The pin set-up of INIT has no bus cycle, unless it finds a pulse open. -/
theorem busCycles_initSetup {p : Pins} (h : p.e ≠ some .asserted) (c : Cfg) : busCycles p (initSetup c) = [] := by
  simp [busCycles, initSetup, Pins.apply, Pins.setLine, Pins.configure, h]

/-- Settles O55: two write cycles for a byte, its high nibble first, and a read's two read cycles. -/
theorem bytesOnTheWire : Obligations.BytesOnTheWire := by
  refine ⟨fun c p b m h => ?_, fun c p n1 n2 h => busCycles_readBusyEvents h c n1 n2⟩
  rw [byteEvents, busCycles_append, busCycles_writeCycle h, busCycles_writeCycle (h.writeCycle c _ m),
    hi_eq_extractLsb', lo_eq_extractLsb']
  rfl

/-- A status read, or a write whose register select and nibble have been written (R41, R72). -/
def BusCycle.Determined (cyc : BusCycle) : Prop :=
  (∃ v, cyc = .read (some .deasserted) v) ∨ (∃ l v, cyc = .write (some l) (some v))

/-- From the state at rest all cycles of whole write cycles, busy-flag reads and delays are determined. -/
theorem busCycles_blocks_determined {c : Cfg} {evs : List PinEvent} (hb : Blocks c evs) :
    ∀ {p : Pins}, p.AtRest → ∀ cyc ∈ busCycles p evs, cyc.Determined := by
  induction hb with
  | nil => exact fun _ => List.forall_mem_nil _
  | write v m _ ih =>
    intro p h
    rw [busCycles_append, busCycles_writeCycle h, List.forall_mem_append, List.forall_mem_singleton]
    exact ⟨.inr ⟨_, _, rfl⟩, ih (h.writeCycle c v m)⟩
  | read n1 n2 _ ih =>
    intro p h
    rw [busCycles_append, busCycles_readBusyEvents h, List.forall_mem_append, List.forall_mem_cons,
      List.forall_mem_singleton]
    exact ⟨⟨.inl ⟨_, rfl⟩, .inl ⟨_, rfl⟩⟩, ih (h.readBusyEvents c n1 n2)⟩
  | delayUs n _ ih => exact fun h => ih h
  | delayMs n _ ih => exact fun h => ih h

/-- Settles O54: INIT's set-up has no bus cycle and leaves the state at rest, and all else is made of blocks. -/
theorem noReadOfTheDataRegister : Obligations.NoReadOfTheDataRegister := by
  intro c o i s t h hp
  obtain ⟨e, -, -, rfl⟩ := execAt_effect h
  refine ⟨e.events, rfl, ?_⟩
  have hev : IsOperationEvents c i e.events := isOperationEvents_of_execAt h rfl
  have he : s.pins.e ≠ some .asserted := by
    obtain ⟨he, -⟩ | ⟨-, hreset⟩ := hp
    · simp [he]
    · simp [hreset, Pins.reset]
  unfold IsOperationEvents at hev
  split at hev
  · obtain ⟨rest, hrest, hevs⟩ := hev
    rw [hevs, busCycles_append, busCycles_initSetup he, List.nil_append]
    exact busCycles_blocks_determined hrest (s.pins.atRest_initSetup c)
  · next hi => exact busCycles_blocks_determined hev (hp.resolve_right fun h => hi h.1)

end Sys2Proof.Machine
end

section
/-! PROOFS of the family of the Pin Driver (spec/40_pin_driver_primitives.md): the effects of its events, their
preconditions, and the freedom of the device's answers. -/

namespace Sys2Proof.Machine

/-! ## Effects (R80 to R90) -/

/-- Settles O14: the equation of `emit`, and those of `Pins.apply` at the nine event forms, by line and operand. -/
theorem pinEventEffects : Obligations.PinEventEffects :=
  ⟨fun _ _ => rfl, fun _ => ⟨rfl, rfl, rfl, rfl, rfl, rfl, rfl, rfl, rfl, rfl,
    fun _ => rfl, fun _ => rfl, fun _ => rfl, fun _ => rfl, fun _ => rfl⟩⟩

/-! ## Preconditions (R84 to R88, R92) -/

theorem preconditionsHold_append (a b : List PinEvent) :
    ∀ p : Pins, preconditionsHold p (a ++ b) = (preconditionsHold p a && preconditionsHold (p.replay a) b) := by
  induction a with
  | nil => exact fun _ => rfl
  | cons ev a ih =>
    intro p
    exact (congrArg (precondition p ev && ·) (ih (p.apply ev))).trans (Bool.and_assoc ..).symm

/-- A write nibble cycle turns no line that SetBus looks at, so the state at rest is enough for it (R85, R100). -/
theorem preconditionsHold_writeCycle {p : Pins} (h : p.AtRest) (c : Cfg) (v : Nibble) (m : Mode) :
    preconditionsHold p (writeCycle c v m) = true := by
  obtain ⟨-, hrw, hdir, hdata, hcfgE, hcfgRs, -⟩ := h
  cases m <;>
    simp [preconditionsHold, precondition, writeCycle, drive, levelOf, Pins.apply, Pins.setLine, Pins.configured,
      hrw, hdir, hdata, hcfgE, hcfgRs]

/-- READ_BUSY brings every line itself to where its reads ask for it, and `RW` and `E` back before it turns the bus
(R84, R86, R104). -/
theorem preconditionsHold_readBusyEvents {p : Pins} (h : p.AtRest) (c : Cfg) (n1 n2 : Nibble) :
    preconditionsHold p (readBusyEvents c n1 n2) = true := by
  obtain ⟨he, hrw, -, hdata, hcfgE, hcfgRs, hcfgRw⟩ := h
  simp [preconditionsHold, precondition, readBusyEvents, readPulseEvents, readPulseOpen, readPulseClose, Pins.apply,
    Pins.setLine, Pins.configured, he, hrw, hdata, hcfgE, hcfgRs, hcfgRw]

/-- The pin set-up of INIT configures every line before it drives it, so it asks nothing of the latches (R92, R141). -/
theorem preconditionsHold_initSetup (p : Pins) (c : Cfg) : preconditionsHold p (initSetup c) = true := rfl

/-- From the state at rest, whole cycles, reads and delays meet every precondition: each of them ends at rest again. -/
theorem preconditionsHold_blocks {c : Cfg} {evs : List PinEvent} (hb : Blocks c evs) :
    ∀ {p : Pins}, p.AtRest → preconditionsHold p evs = true := by
  induction hb with
  | nil => exact fun _ => rfl
  | write v m _ ih =>
    intro p h
    rw [preconditionsHold_append, preconditionsHold_writeCycle h, Bool.true_and]
    exact ih (h.writeCycle c v m)
  | read n1 n2 _ ih =>
    intro p h
    rw [preconditionsHold_append, preconditionsHold_readBusyEvents h, Bool.true_and]
    exact ih (h.readBusyEvents c n1 n2)
  | delayUs n _ ih => exact fun h => ih h
  | delayMs n _ ih => exact fun h => ih h

/-- Settles O48: INIT's set-up needs nothing and leaves the state at rest, and all else is made of blocks. -/
theorem preconditionsAreTheorems : Obligations.PreconditionsAreTheorems := by
  intro c o i s t h hp
  obtain ⟨e, -, -, rfl⟩ := execAt_effect h
  refine ⟨e.events, rfl, ?_⟩
  have hev : IsOperationEvents c i e.events := isOperationEvents_of_execAt h rfl
  unfold IsOperationEvents at hev
  split at hev
  · obtain ⟨rest, hrest, hevs⟩ := hev
    rw [hevs, preconditionsHold_append, preconditionsHold_initSetup, Bool.true_and]
    exact preconditionsHold_blocks hrest (s.pins.atRest_initSetup c)
  · next hi => exact preconditionsHold_blocks hev (hp.resolve_right hi)

/-! ## The device's answers (R84) -/

/-- The device that follows a script: at a trace of length `k` it answers what the `k`-th event of the script read, and
0 where that event is no read. -/
def scriptedDevice (script : List PinEvent) : Oracle := fun tr =>
  match script[tr.length]? with
  | some (.readBus v) => v
  | _ => 0#4

theorem scriptedDevice_readBus (before evs : List PinEvent) (v : Nibble) :
    scriptedDevice (before ++ .readBus v :: evs) before = v := by
  simp [scriptedDevice]

/-- Any events are answered by the device whose script they are: no event of a trace stands in another's place. -/
theorem answeredBy_scriptedDevice (evs : List PinEvent) :
    ∀ before : List PinEvent, answeredBy (scriptedDevice (before ++ evs)) before evs = true := by
  induction evs with
  | nil => exact fun _ => rfl
  | cons ev evs ih =>
    intro before
    have htail : answeredBy (scriptedDevice (before ++ ev :: evs)) (before ++ [ev]) evs = true := by
      simpa using ih (before ++ [ev])
    cases ev with
    | readBus v => simp [answeredBy, scriptedDevice_readBus, htail]
    | _ => exact htail

/-- WAIT_READY reads the answers of one wait that fit the device. -/
theorem waitReady_of_answeredBy {c : Cfg} {o : Oracle} {s : State} {answers : List Answer}
    (hw : isWaitOf c.nPollMax answers = true) (hans : answeredBy o s.trace (waitEvents c answers) = true) :
    ∃ u, waitReady c o s = (waitResultOf answers, ((s.ran (waitEvents c answers)).polled answers).goto u) := by
  obtain ⟨read, u, hread, hansRead, hrun⟩ := waitReady_spec c o s
  obtain rfl := answers_unique c o c.nPollMax 0 s.trace read answers hread hw hansRead hans
  exact ⟨u, hrun⟩

/-- Settles O57: the device whose script is the trace with the events of the wanted wait. -/
theorem everyAnswerIsPossible : Obligations.EveryAnswerIsPossible := by
  intro c s answers hs hw hne
  refine ⟨scriptedDevice (s.trace ++ waitEvents c answers), ?_⟩
  obtain ⟨u, hrun⟩ := waitReady_of_answeredBy hw (answeredBy_scriptedDevice (waitEvents c answers) s.trace)
  rw [execAt_accepted c _ (i := .waitReady) hs, operation, hrun, ← s.ran_waitEvents c hw hne]
  rfl

end Sys2Proof.Machine
end

section
/-! PROOFS of the family of the Signal Sequencer (spec/41_signal_sequencer.md): what its operations leave and what their
events last, the latches inside a write nibble cycle (R101), and where the bus is turned for reading (R105). -/

namespace Sys2Proof.Machine

/-! ## What the operations leave (R100, R102, R104) -/

theorem exec_accepted {i : Instr} {s : State} (h : Accepts i s) :
    exec i s = .next ((operation Config.cfg Config.oracle i s).2.complete
      (operation Config.cfg Config.oracle i s).1) :=
  (exec_eq_execAt i s).trans (execAt_accepted _ _ h)

/-- A completed operation stands at micro-step 0, wherever its list ended. -/
theorem State.complete_goto (s : State) (n : Nat) (r : Result) : (s.goto n).complete r = s.complete r := rfl

/-- Settles O17: SEND_NIBBLE performs its write cycle, whatever the latches hold. -/
theorem sendNibbleResult : Obligations.SendNibbleResult := by
  intro value mode s h
  refine ⟨decode_encode (.sendNibble value mode), ?_, by cases mode <;> rfl⟩
  rw [exec_accepted (i := .sendNibble value mode) h, operation, sendNibble_eq, State.complete_goto,
    State.ran_writeCycle]

/-- Settles O19: SEND_BYTE performs the cycles of its two nibbles. -/
theorem sendByteResult : Obligations.SendByteResult := by
  intro value mode s h
  refine ⟨decode_encode (.sendByte value mode), ?_, ?_, byteEvents_length _ value mode⟩
  · rw [exec_accepted (i := .sendByte value mode) h, operation, sendByte_eq, State.complete_goto,
      State.ran_byteEvents]
  · rw [byteEvents, hi_eq_extractLsb', lo_eq_extractLsb']

/-- Settles O20: the two nibbles are the device's answers at the two read points. -/
theorem readBusyResult : Obligations.ReadBusyResult := by
  intro s h
  refine ⟨decode_encode .readBusy, _, _, readBusyAnswer_answered Config.cfg Config.oracle s.trace, ?_,
    readBusyEvents_length ..⟩
  rw [exec_accepted (i := .readBusy) h, operation, readBusy_eq, ← State.ran_readBusyEvents]
  rfl

/-! ## Sizes (R106) -/

theorem nominal_append (a b : List PinEvent) : nominal (a ++ b) = nominal a + nominal b := by
  rw [nominal, List.map_append, List.sum_append]
  rfl

theorem nominal_writeCycle (c : Cfg) (v : Nibble) (m : Mode) : nominal (writeCycle c v m) = pulseUs c := by
  cases m <;> simp [nominal, writeCycle, drive, levelOf, dur, pulseUs, Nat.add_assoc]

theorem nominal_byteEvents (c : Cfg) (b : Byte) (m : Mode) : nominal (byteEvents c b m) = 2 * pulseUs c := by
  rw [byteEvents, nominal_append, nominal_writeCycle, nominal_writeCycle, Nat.two_mul]

theorem nominal_readPulseEvents (c : Cfg) (n : Nibble) : nominal (readPulseEvents c n) = pulseUs c := by
  simp [nominal, readPulseEvents, readPulseOpen, readPulseClose, dur, pulseUs, Nat.add_assoc]

/-- Only the two pulses of a READ_BUSY take time: turning the bus takes none. -/
theorem nominal_readBusyEvents (c : Cfg) (n1 n2 : Nibble) : nominal (readBusyEvents c n1 n2) = 2 * pulseUs c := by
  have hopen : nominal [.setDir .input, .assert .rw, .deassert .rs] = 0 := rfl
  have hclose : nominal [.deassert .rw, .setDir .output] = 0 := rfl
  rw [readBusyEvents, nominal_append, nominal_append, nominal_append, nominal_readPulseEvents,
    nominal_readPulseEvents, hopen, hclose]
  omega

/-- Settles O23: the events are counted, for either mode; the durations are those of the pulses. -/
theorem sequencerSizes : Obligations.SequencerSizes := by
  intro c v n1 n2 b m
  refine ⟨?_, ?_, congrArg (7, 3, ·, 1) (nominal_readPulseEvents c n1),
    congrArg (19, 6, ·, 2) (nominal_readBusyEvents c n1 n2)⟩
  · cases m <;> exact congrArg (8, 3, ·, 0) (nominal_writeCycle c v _)
  · cases m <;> exact congrArg (16, 6, ·, 0) (nominal_byteEvents c b _)

/-! ## Inside a write nibble cycle (R101) -/

/-- Micro-steps 2 to 7 of SEND_NIBBLE: the enable pulse with its three delays (R100). -/
def enablePulse (c : Cfg) : List PinEvent :=
  [.deassert .e, .delayUs c.dSetupUs, .assert .e, .delayUs c.dPulseUs, .deassert .e, .delayUs c.dSettleUs]

/-- `E` after the first `j` events of an enable pulse that found it at `old`. -/
def enableDuring (old : Option Level) (j : Nat) : Option Level :=
  if j = 0 then old else if j = 3 ∨ j = 4 then some .asserted else some .deasserted

/-- An enable pulse moves `E` and no other latch. -/
theorem Pins.replay_take_enablePulse (p : Pins) (c : Cfg) {j : Nat} (hj : j ≤ 6) :
    p.replay ((enablePulse c).take j) = { p with e := enableDuring p.e j } := by
  interval_cases j <;> rfl

theorem enableDuring_eq_asserted_iff (old : Option Level) (j : Nat) :
    enableDuring old j = some .asserted ↔ j = 3 ∨ j = 4 ∨ j = 0 ∧ old = some .asserted := by
  unfold enableDuring
  split_ifs with h0 hhigh
  · simp [h0]
  · simpa [or_assoc] using hhigh.imp_right Or.inl
  · simp [h0, not_or.1 hhigh]

/-- The latches from the end of step 1 of a write nibble cycle on: those of the set-up, and `E` in its pulse. -/
theorem Pins.replay_take_writeCycle (p : Pins) (c : Cfg) (v : Nibble) (m : Mode) {j : Nat} (hj : j ≤ 6) :
    p.replay ((writeCycle c v m).take (j + 2)) =
      { p with rs := some (levelOf m), dbOut := some v, e := enableDuring p.e j } := by
  have htake : (writeCycle c v m).take (j + 2) = [drive .rs (levelOf m), .setBus v] ++ (enablePulse c).take j := rfl
  rw [htake, Pins.replay_append, Pins.replay_take_enablePulse _ c hj]
  cases m <;> rfl

/-- Settles O18: after the two set-up events only the enable pulse is left. -/
theorem latchedNibbleIsStable : Obligations.LatchedNibbleIsStable := by
  intro c p value mode k hlo hhi
  obtain ⟨j, rfl⟩ := Nat.exists_eq_add_of_le' hlo
  rw [Pins.replay_take_writeCycle p c value mode (by omega)]
  exact ⟨rfl, rfl, rfl, rfl, by simp [enableDuring_eq_asserted_iff]⟩

/-! ## Inside READ_BUSY (R105) -/

/-- The events of READ_BUSY from its turning `RW` to its turning it back: `RS`, and the two read pulses (R104). -/
def readBusyInner (c : Cfg) (n1 n2 : Nibble) : List PinEvent :=
  .deassert .rs :: (readPulseEvents c n1 ++ readPulseEvents c n2)

theorem readBusyEvents_eq_inner (c : Cfg) (n1 n2 : Nibble) :
    readBusyEvents c n1 n2 =
      .setDir .input :: .assert .rw :: (readBusyInner c n1 n2 ++ [.deassert .rw, .setDir .output]) := rfl

/-- An event that writes neither `DIR` nor `RW` leaves both. -/
theorem Pins.dir_rw_apply {ev : PinEvent} (h : Latch.dir ∉ latchesOf ev ∧ Latch.rw ∉ latchesOf ev) (p : Pins) :
    (p.apply ev).dir = p.dir ∧ (p.apply ev).rw = p.rw := by
  cases ev with
  | cfgDataOut | setDir d => simp [latchesOf] at h
  | cfgCtlOut l => cases l <;> exact ⟨rfl, rfl⟩
  | assert l | deassert l =>
    cases l with
    | rw => simp [latchesOf] at h
    | e | rs => exact ⟨rfl, rfl⟩
  | _ => exact ⟨rfl, rfl⟩

theorem Pins.dir_rw_replay : ∀ {evs : List PinEvent},
    (∀ ev ∈ evs, Latch.dir ∉ latchesOf ev ∧ Latch.rw ∉ latchesOf ev) →
    ∀ p : Pins, (p.replay evs).dir = p.dir ∧ (p.replay evs).rw = p.rw
  | [], _, _ => ⟨rfl, rfl⟩
  | ev :: evs, h, p => by
    obtain ⟨hev, hevs⟩ := List.forall_mem_cons.1 h
    obtain ⟨hdir, hrw⟩ := Pins.dir_rw_apply hev p
    obtain ⟨hdirs, hrws⟩ := Pins.dir_rw_replay hevs (p.apply ev)
    exact ⟨hdirs.trans hdir, hrws.trans hrw⟩

/-- From the end of step 1 of READ_BUSY until its pulses are over, the bus is turned for reading. -/
theorem Pins.turned_inside_readBusy (p : Pins) (c : Cfg) (n1 n2 : Nibble) {k : Nat} (hlo : 2 ≤ k) (hhi : k ≤ 17) :
    (p.replay ((readBusyEvents c n1 n2).take k)).dir = some .input ∧
    (p.replay ((readBusyEvents c n1 n2).take k)).rw = some .asserted := by
  obtain ⟨j, rfl⟩ := Nat.exists_eq_add_of_le' hlo
  have hj : j ≤ (readBusyInner c n1 n2).length := by
    have hlen : (readBusyInner c n1 n2).length = 15 := rfl
    omega
  have hinner : ∀ ev ∈ readBusyInner c n1 n2, Latch.dir ∉ latchesOf ev ∧ Latch.rw ∉ latchesOf ev := by
    simp [readBusyInner, readPulseEvents, readPulseOpen, readPulseClose, latchesOf]
  rw [readBusyEvents_eq_inner, List.take_succ_cons, List.take_succ_cons, List.take_append_of_le_length hj]
  exact Pins.dir_rw_replay (fun ev h => hinner ev (List.mem_of_mem_take h)) (p.replay [.setDir .input, .assert .rw])

/-- Before that and after it only `DIR` is turned yet or still, or nothing is. -/
theorem Pins.turned_in_readBusy_iff {p : Pins} (h : p.Outward) (c : Cfg) (n1 n2 : Nibble) {k : Nat} (hk : k ≤ 19) :
    ((p.replay ((readBusyEvents c n1 n2).take k)).dir = some .input ↔ 1 ≤ k ∧ k ≤ 18) ∧
    ((p.replay ((readBusyEvents c n1 n2).take k)).rw = some .asserted ↔ 2 ≤ k ∧ k ≤ 17) := by
  by_cases hmid : 2 ≤ k ∧ k ≤ 17
  · obtain ⟨hdir, hrw⟩ := p.turned_inside_readBusy c n1 n2 hmid.1 hmid.2
    exact ⟨iff_of_true hdir (by omega), iff_of_true hrw hmid⟩
  · obtain ⟨hdir, hrw⟩ := h
    obtain rfl | rfl | rfl | rfl : k = 0 ∨ k = 1 ∨ k = 18 ∨ k = 19 := by omega
    · exact ⟨iff_of_false hdir (by omega), iff_of_false hrw hmid⟩
    · exact ⟨iff_of_true rfl (by omega), iff_of_false hrw hmid⟩
    · exact ⟨iff_of_true rfl (by omega), iff_of_false nofun hmid⟩
    · exact ⟨iff_of_false nofun (by omega), iff_of_false nofun hmid⟩

/-! ## And nowhere else (R105) -/

theorem writeCycle_turns_nothing (c : Cfg) (v : Nibble) (m : Mode) :
    ∀ ev ∈ writeCycle c v m, ev ≠ .setDir .input ∧ ev ≠ .assert .rw := by
  cases m <;> simp [writeCycle, drive, levelOf]

theorem initSetup_turns_nothing (c : Cfg) : ∀ ev ∈ initSetup c, ev ≠ .setDir .input ∧ ev ≠ .assert .rw := by
  simp [initSetup]

/-- Whole cycles, reads and delays are their own pieces. -/
theorem inputOnlyInReads_blocks {c : Cfg} {evs : List PinEvent} (hb : Blocks c evs) :
    ∀ p : Pins, InputOnlyInReads c p evs := by
  induction hb with
  | nil => exact InputOnlyInReads.nil c
  | write v m _ ih => exact fun _ => .append (.inr (writeCycle_turns_nothing c v m)) (ih _)
  | read n1 n2 _ ih => exact fun _ => .append (.inl ⟨n1, n2, rfl⟩) (ih _)
  | delayUs n _ ih | delayMs n _ ih => exact fun _ => .append (.inr (by simp)) (ih _)

theorem IsOperationEvents.inputOnlyInReads {c : Cfg} {i : Instr} {evs : List PinEvent} (h : IsOperationEvents c i evs)
    (p : Pins) : InputOnlyInReads c p evs := by
  unfold IsOperationEvents at h
  split at h
  · obtain ⟨rest, hrest, rfl⟩ := h
    exact .append (.inr (initSetup_turns_nothing c)) (inputOnlyInReads_blocks hrest _)
  · exact inputOnlyInReads_blocks h p

/-- Settles O21: a READ_BUSY restores the bus, its events turn it where R105 says, and the events of the other
operations and of WRITE_STRING are made of such reads and of pieces that turn nothing. -/
theorem readBusyPostcondition : Obligations.ReadBusyPostcondition := by
  refine ⟨fun c o s t h => ?_, fun c p n1 n2 k hp hk => Pins.turned_in_readBusy_iff hp c n1 n2 hk,
    fun c p n1 n2 k hlo hhi => p.turned_inside_readBusy c n1 n2 hlo hhi, fun c o i s t h => ?_,
    fun c o bytes s => ?_⟩
  · obtain ⟨e, he, -, rfl⟩ := execAt_effect h
    cases he with
    | readBusy n1 n2 => exact ⟨rfl, rfl, rfl, rfl⟩
  · obtain ⟨e, -, -, rfl⟩ := execAt_effect h
    exact ⟨e.events, rfl, (isOperationEvents_of_execAt h rfl).inputOnlyInReads s.pins⟩
  · obtain ⟨evs, hb, htr⟩ := writeString_performs_blocks c o bytes s
    exact ⟨evs, htr, inputOnlyInReads_blocks hb s.pins⟩

end Sys2Proof.Machine
end

section
/-! PROOFS of the family of the Protocol Controller (spec/42_protocol_controller.md): the polls and delays of a wait
(R120, R121), the operations that send one byte behind a wait (R124 to R138), WRITE_STRING (R130) and INIT (R140,
R143). -/

namespace Sys2Proof.Machine

/-! ## How many polls a wait makes (R120) -/

theorem waitResultOf_eq_exhausted_iff (w : List Answer) :
    waitResultOf w = .exhausted ↔ ∀ a ∈ w, busyFlagOf a.1 = true := by
  simp only [waitResultOf, ite_eq_left_iff, reduceCtorEq, imp_false, not_not, List.all_eq_true]

/-- Only the bound ends a wait whose every poll read busy. -/
theorem length_eq_of_all_busy : ∀ {n : Nat} {w : List Answer}, isWaitOf n w = true →
    (∀ a ∈ w, busyFlagOf a.1 = true) → w.length = n
  | 0, _, hw, _ => by simpa [isWaitOf] using hw
  | n + 1, [], hw, _ => by simp [isWaitOf] at hw
  | n + 1, a :: rest, hw, hb => by
    obtain ⟨ha, hrest⟩ := List.forall_mem_cons.1 hb
    rw [isWaitOf, if_pos ha] at hw
    exact congrArg (· + 1) (length_eq_of_all_busy hw hrest)

/-- The first poll that reads ready ends a wait. -/
theorem length_eq_one_of_all_ready {n : Nat} (hn : 1 ≤ n) {w : List Answer} (hw : isWaitOf n w = true)
    (hr : ∀ a ∈ w, busyFlagOf a.1 = false) : w.length = 1 := by
  obtain ⟨n, rfl⟩ := Nat.exists_eq_add_of_le' hn
  cases w with
  | nil => simp [isWaitOf] at hw
  | cons a rest =>
    rw [isWaitOf, (List.forall_mem_cons.1 hr).1] at hw
    simpa using hw

/-! ## The delays of a wait (R120 step 5, R121) -/

/-- How many delays stand between and after polls that read these answers, when `made` polls were made before them. -/
def delayCount (c : Cfg) (made : Nat) : List Answer → Nat
  | [] => 0
  | a :: rest => (if busyFlagOf a.1 then (pollDelay c (made + 1)).length else 0) + delayCount c (made + 1) rest

theorem pollDelay_length_of_lt {c : Cfg} {made : Nat} (h : made < c.nPollMax) : (pollDelay c made).length = 1 := by
  simp [pollDelay, h]

theorem pollDelay_length_at_bound (c : Cfg) :
    (pollDelay c c.nPollMax).length = if c.pollDelayAfterLast = true then 1 else 0 := by
  unfold pollDelay
  split <;> simp_all

theorem pollDelay_length_le (c : Cfg) (made : Nat) : (pollDelay c made).length ≤ 1 := by
  unfold pollDelay
  split <;> simp

theorem delayCount_le_length (c : Cfg) : ∀ (w : List Answer) (made : Nat), delayCount c made w ≤ w.length
  | [], _ => Nat.le_refl 0
  | a :: rest, made => by
    have hhere := pollDelay_length_le c (made + 1)
    have hrest := delayCount_le_length c rest (made + 1)
    rw [delayCount, List.length_cons]
    split <;> omega

/-- A wait has a delay between any two polls, and one after the last if it is exhausted and the configuration asks for
it. -/
theorem delayCount_wait {c : Cfg} : ∀ {n made : Nat} {w : List Answer}, made + n = c.nPollMax →
    isWaitOf n w = true → w ≠ [] → delayCount c made w =
      w.length - 1 + (if waitResultOf w = .exhausted ∧ c.pollDelayAfterLast = true then 1 else 0)
  | 0, _, _, _, hw, hne => absurd (by simpa [isWaitOf] using hw) hne
  | n + 1, _, [], _, _, hne => absurd rfl hne
  | n + 1, made, a :: rest, hmade, hw, _ => by
    rw [isWaitOf] at hw
    split at hw
    · next hb =>
      rw [delayCount, if_pos hb, waitResultOf_busy hb]
      cases n with
      | zero =>
        obtain rfl : rest = [] := by simpa [isWaitOf] using hw
        rw [hmade, pollDelay_length_at_bound]
        simp [delayCount, waitResultOf]
      | succ n =>
        have hne : rest ≠ [] := isWaitOf_ne_nil (by omega) hw
        have hpos : 1 ≤ rest.length := List.length_pos_iff.2 hne
        rw [pollDelay_length_of_lt (by omega), delayCount_wait (by omega) hw hne, List.length_cons]
        omega
    · next hb =>
      obtain rfl : rest = [] := by simpa using hw
      simp [delayCount, waitResultOf, hb]

/-- What is summed up over the events of polls is summed up over their reads and their delays. -/
theorem sum_pollEvents (c : Cfg) (f : PinEvent → Nat) {r : Nat}
    (hread : ∀ n1 n2, ((readBusyEvents c n1 n2).map f).sum = r) : ∀ (w : List Answer) (made : Nat),
    ((pollEvents c made w).map f).sum = r * w.length + f (.delayUs c.dPollUs) * delayCount c made w
  | [], _ => rfl
  | a :: rest, made => by
    have hdelay : ((pollDelay c (made + 1)).map f).sum = f (.delayUs c.dPollUs) * (pollDelay c (made + 1)).length := by
      unfold pollDelay
      split <;> simp
    simp only [pollEvents, delayCount, List.map_append, List.sum_append, hread, sum_pollEvents c f hread rest,
      List.length_cons, Nat.mul_add, Nat.mul_one]
    split
    · rw [hdelay]; omega
    · rw [List.map_nil, List.sum_nil]; omega

theorem waitEvents_length_eq (c : Cfg) (w : List Answer) :
    (waitEvents c w).length = 19 * w.length + delayCount c 0 w := by
  have hread : ∀ n1 n2, ((readBusyEvents c n1 n2).map fun _ => 1).sum = 19 := by simp [readBusyEvents_length]
  have hsum := sum_pollEvents c (fun _ => 1) hread w 0
  simpa [waitEvents] using hsum

theorem nominal_waitEvents_eq (c : Cfg) (w : List Answer) :
    nominal (waitEvents c w) = 2 * pulseUs c * w.length + c.dPollUs * delayCount c 0 w :=
  sum_pollEvents c dur (nominal_readBusyEvents c) w 0

/-- The number of events of one wait (R120). -/
theorem waitEvents_length_of_wait {c : Cfg} {w : List Answer} (hw : isWaitOf c.nPollMax w = true) (hne : w ≠ []) :
    (waitEvents c w).length = 19 * w.length + (w.length - 1) +
      (if waitResultOf w = .exhausted ∧ c.pollDelayAfterLast = true then 1 else 0) := by
  rw [waitEvents_length_eq, delayCount_wait (Nat.zero_add _) hw hne, Nat.add_assoc]

/-- Settles O25: each poll is 19 events, brings at most one delay, and there are at most `N_POLL_MAX` of them. -/
theorem waitReadyIsBounded : Obligations.WaitReadyIsBounded := by
  intro c o s h
  obtain ⟨t, ht⟩ := (exists_execAt_next_iff c o .waitReady s).2 h
  obtain ⟨e, he, -, rfl⟩ := execAt_effect ht
  cases he with
  | @waitReady w hw =>
    have hpolls : w.length ≤ c.nPollMax := isWaitOf_length_le hw
    have hdelays : delayCount c 0 w ≤ w.length := delayCount_le_length c w 0
    have hlen := waitEvents_length_eq c w
    refine ⟨_, w, ht, rfl, hpolls, by omega, by omega, ?_⟩
    calc nominal (waitEvents c w)
        = 2 * pulseUs c * w.length + c.dPollUs * delayCount c 0 w := nominal_waitEvents_eq c w
      _ ≤ 2 * pulseUs c * c.nPollMax + c.dPollUs * c.nPollMax :=
        Nat.add_le_add (Nat.mul_le_mul_left _ hpolls) (Nat.mul_le_mul_left _ (hdelays.trans hpolls))
      _ = c.nPollMax * (2 * pulseUs c + c.dPollUs) := by rw [← Nat.add_mul, Nat.mul_comm]

/-! ## One wait, and one byte behind it (R120 to R127, R138) -/

/-- An accepted instruction answers the next state of one of its effects. -/
theorem exec_effect {i : Instr} {s : State} (h : Accepts i s) : ∃ e : Effect,
    HasEffect Config.cfg s i e ∧ answeredBy Config.oracle s.trace e.events = true ∧ exec i s = .next (s.completed e) := by
  obtain ⟨t, ht⟩ := (exists_execAt_next_iff Config.cfg Config.oracle i s).2 h
  obtain ⟨e, he, hans, rfl⟩ := execAt_effect ht
  exact ⟨e, he, hans, (exec_eq_execAt i s).trans ht⟩

/-- Settles O24: the answers are those of the wait's effect, and at least one poll is made. -/
theorem waitReadyResult : Obligations.WaitReadyResult := by
  intro s h
  refine ⟨decode_encode .waitReady, ?_⟩
  obtain ⟨e, he, hans, hrun⟩ := exec_effect (i := .waitReady) h
  cases he with
  | @waitReady w hw =>
    have hne : w ≠ [] := isWaitOf_ne_nil Config.one_le_nPollMax hw
    refine ⟨w, hw, hans, ?_, List.length_pos_iff.2 hne, isWaitOf_length_le hw, fun hex => ?_,
      waitEvents_length_of_wait hw hne⟩
    · rw [hrun, ← s.ran_waitEvents Config.cfg hw hne, State.completed, ← h.2]
      rfl
    · exact length_eq_of_all_busy hw ((waitResultOf_eq_exhausted_iff w).1 hex)

/-- The effect of one wait and a byte behind it, with the value the operation returns. -/
def waitedByte (c : Cfg) (s : State) (w : List Answer) (b : Byte) (m : Mode) (r : Result) : Effect :=
  ⟨waitEvents c w ++ byteEvents c b m, r, flagAfter s.bf w, w.length⟩

theorem completed_waitedByte {c : Cfg} {s : State} (hs : s.pstate = .ready) {n : Nat} {w : List Answer}
    (hw : isWaitOf n w = true) (hne : w ≠ []) (b : Byte) (m : Mode) (r : Result) :
    s.completed (waitedByte c s w b m r) = ((s.afterWait c w).afterByte c b m).complete r := by
  rw [← s.ran_waitThenByte c b m hw hne, State.completed, ← hs]
  rfl

/-- An operation whose every effect is a wait and then this byte leaves the state after both, whatever the wait
returned. -/
theorem exec_waitedByte {i : Instr} {s : State} {b : Byte} {m : Mode} {r : Result} (hi : i ≠ .init) (h : s.Accepting)
    (heff : ∀ e, HasEffect Config.cfg s i e →
      ∃ w, isWaitOf Config.cfg.nPollMax w = true ∧ e = waitedByte Config.cfg s w b m r) :
    ∃ answers : List Answer, isWaitOf Config.cfg.nPollMax answers = true ∧
      answeredBy Config.oracle s.trace (waitEvents Config.cfg answers) = true ∧
      exec i s = .next (((s.afterWait Config.cfg answers).afterByte Config.cfg b m).complete r) := by
  obtain ⟨e, he, hans, hrun⟩ := exec_effect (i := i) (by rwa [Accepts, if_neg hi])
  obtain ⟨w, hw, rfl⟩ := heff e he
  have hwait : answeredBy Config.oracle s.trace (waitEvents Config.cfg w) = true := by
    rw [waitedByte, answeredBy_append, Bool.and_eq_true] at hans
    exact hans.1
  refine ⟨w, hw, hwait, ?_⟩
  rw [hrun, completed_waitedByte h.2 hw (isWaitOf_ne_nil Config.one_le_nPollMax hw)]

/-- Settles O28: a wait and the byte in command mode. -/
theorem writeCommandResult : Obligations.WriteCommandResult := by
  intro cmd s h
  refine ⟨decode_encode (.writeCommand cmd), exec_waitedByte nofun h fun e he => ?_⟩
  cases he with
  | writeCommand _ hw => exact ⟨_, hw, rfl⟩

/-- Settles O29: a wait and the byte in data mode. -/
theorem writeCharResult : Obligations.WriteCharResult := by
  intro ch s h
  refine ⟨decode_encode (.writeChar ch), exec_waitedByte nofun h fun e he => ?_⟩
  cases he with
  | writeChar _ hw => exact ⟨_, hw, rfl⟩

/-- Settles O32: a wait and the clear byte in command mode. -/
theorem clearResult : Obligations.ClearResult := by
  intro s h
  refine ⟨decode_encode .clear, exec_waitedByte nofun h fun e he => ?_⟩
  cases he with
  | clear hw => exact ⟨_, hw, rfl⟩

/-! ## The cursor (R134 to R136) -/

theorem cursorInRange_iff (row col : Byte) : cursorInRange row col = true ↔ row.toNat < 2 ∧ col.toNat < 0x27 := by
  simp [cursorInRange, BitVec.ult]

theorem cursorAddr_eq_ofNat (row col : Byte) : cursorAddr row col = BitVec.ofNat 8 (row.toNat * 0x40 + col.toNat) := by
  apply BitVec.eq_of_toNat_eq
  simp [cursorAddr]

theorem positioningByte_eq_ofNat (c : Cfg) (row col : Byte) :
    positioningByte c row col = c.cmdSetDdram ||| BitVec.ofNat 8 (row.toNat * 0x40 + col.toNat) := by
  rw [positioningByte, cursorAddr_eq_ofNat]

theorem cursorAddr_toNat {row col : Byte} (h : cursorInRange row col = true) :
    (cursorAddr row col).toNat = row.toNat * 0x40 + col.toNat := by
  obtain ⟨hrow, hcol⟩ := (cursorInRange_iff row col).1 h
  rw [cursorAddr_eq_ofNat, BitVec.toNat_ofNat]
  omega

/-- The OR of two numbers is their sum where one stands above the bits of the other. -/
theorem or_eq_add_of_mod_eq_zero {x y k : Nat} (hx : x % 2 ^ k = 0) (hy : y < 2 ^ k) : x ||| y = x + y := by
  obtain ⟨q, rfl⟩ := Nat.dvd_of_mod_eq_zero hx
  exact (Nat.two_pow_add_eq_or_of_lt hy q).symm

/-- Settles O16: the guard bounds both operands, so nothing wraps, and the row and the base stand above the bits of what
they are joined with. -/
theorem cursorAddressArithmetic : Obligations.CursorAddressArithmetic := by
  refine ⟨cursorInRange_iff, fun row col h => ?_, fun c row col hc h => ⟨rfl, ?_⟩⟩
  all_goals
    have haddr := cursorAddr_toNat h
    obtain ⟨hrow, hcol⟩ := (cursorInRange_iff row col).1 h
  · refine ⟨haddr, by omega, by omega, BitVec.eq_of_toNat_eq ?_⟩
    have hshift : (row <<< 6).toNat = row.toNat * 0x40 := by
      rw [BitVec.toNat_shiftLeft, Nat.shiftLeft_eq]
      omega
    rw [haddr, BitVec.toNat_or, hshift, or_eq_add_of_mod_eq_zero (k := 6) (by omega) (by omega)]
  · obtain ⟨-, -, -, hbase⟩ := hc
    have hmod : c.cmdSetDdram.toNat % 2 ^ 7 = 0 := by
      rw [← Nat.and_two_pow_sub_one_eq_mod]
      exact congrArg BitVec.toNat hbase
    rw [positioningByte, BitVec.toNat_or, or_eq_add_of_mod_eq_zero hmod (by omega)]

theorem completed_cursorDropped {s : State} (h : s.Accepting) :
    s.completed ⟨[], .cursor .dropped, s.bf, s.attempt⟩ = { s with results := s.results ++ [.cursor .dropped] } := by
  simp only [State.completed, State.ran, Pins.replay, List.foldl_nil, List.append_nil, ← h.1, ← h.2]

/-- Settles O30: the guard decides which effect SET_CURSOR has. -/
theorem setCursorResult : Obligations.SetCursorResult := by
  intro row col s h
  refine ⟨decode_encode (.setCursor row col), fun hout => ?_, fun hin => ?_⟩
  · rw [← cursorInRange_iff] at hout
    obtain ⟨e, he, -, hrun⟩ := exec_effect (i := .setCursor row col) h
    cases he with
    | cursorIssued hin => exact absurd hin hout
    | cursorDropped => rw [hrun, completed_cursorDropped h]
  · rw [← cursorInRange_iff] at hin
    rw [← positioningByte_eq_ofNat]
    refine exec_waitedByte nofun h fun e he => ?_
    cases he with
    | cursorIssued _ hw => exact ⟨_, hw, rfl⟩
    | cursorDropped hout => simp [hin] at hout

/-! ## What is put on the data bus (R135, R143) -/

theorem busValues_append (a b : List PinEvent) : busValues (a ++ b) = busValues a ++ busValues b := by
  induction a with
  | nil => rfl
  | cons ev a ih => cases ev <;> simp [busValues, ih]

theorem busValues_writeCycle (c : Cfg) (v : Nibble) (m : Mode) : busValues (writeCycle c v m) = [v] := by
  cases m <;> rfl

theorem busValues_byteEvents (c : Cfg) (b : Byte) (m : Mode) : busValues (byteEvents c b m) = [hi b, lo b] := by
  rw [byteEvents, busValues_append, busValues_writeCycle, busValues_writeCycle]
  rfl

/-- Polls put nothing on the bus. -/
theorem busValues_pollEvents (c : Cfg) : ∀ (w : List Answer) (made : Nat), busValues (pollEvents c made w) = []
  | [], _ => rfl
  | a :: rest, made => by
    have hread : busValues (readBusyEvents c a.1 a.2) = [] := rfl
    have hdelay : busValues (if busyFlagOf a.1 then pollDelay c (made + 1) else []) = [] := by
      unfold pollDelay
      split_ifs <;> rfl
    rw [pollEvents, busValues_append, busValues_append, hread, hdelay, busValues_pollEvents c rest]
    rfl

theorem busValues_commandEvents (c : Cfg) (w : List Answer) (cmd : Byte) :
    busValues (commandEvents c w cmd) = [hi cmd, lo cmd] := by
  rw [commandEvents, waitEvents, busValues_append, busValues_pollEvents, busValues_byteEvents]
  rfl

theorem commandEvents_length (c : Cfg) (w : List Answer) (cmd : Byte) :
    (commandEvents c w cmd).length = (waitEvents c w).length + 16 := by
  rw [commandEvents, List.length_append, byteEvents_length]

/-- Settles O31: an issued command has the two events of its byte, and a dropped one has no event. -/
theorem positioningCommandIffInRange : Obligations.PositioningCommandIffInRange := by
  intro c o row col s t h
  obtain ⟨e, he, -, rfl⟩ := execAt_effect h
  refine ⟨e.events, rfl, ?_⟩
  rw [← cursorInRange_iff, ← positioningByte_eq_ofNat]
  cases he with
  | @cursorIssued _ _ w hin =>
    have hne : commandEvents c w (positioningByte c row col) ≠ [] := by
      rw [← List.length_pos_iff, commandEvents_length]
      omega
    exact ⟨iff_of_true hne hin, fun _ => busValues_commandEvents c w _⟩
  | cursorDropped hout => simp [hout]

/-! ## WRITE_STRING (R130) -/

/-- The events of WRITE_STRING whose waits, one for each byte, read these answers. -/
def stringEvents (c : Cfg) (bytes : List Byte) (waits : List (List Answer)) : List PinEvent :=
  ((bytes.zip waits).map fun x => waitEvents c x.2 ++ byteEvents c x.1 .data).flatten

theorem stringEvents_cons (c : Cfg) (b : Byte) (bytes : List Byte) (w : List Answer) (waits : List (List Answer)) :
    stringEvents c (b :: bytes) (w :: waits) =
      (waitEvents c w ++ byteEvents c b .data) ++ stringEvents c bytes waits := rfl

/-- The loop of WRITE_STRING: one WRITE_CHAR after another changes nothing but what its events change, `BF`, `ATTEMPT`
and UPC. -/
theorem stringLoop_spec (c : Cfg) (o : Oracle) : ∀ (bytes : List Byte) (s : State),
    ∃ (waits : List (List Answer)) (f : Option Bool) (k u : Nat),
      waits.length = bytes.length ∧ (∀ w ∈ waits, isWaitOf c.nPollMax w = true) ∧
      answeredBy o s.trace (stringEvents c bytes waits) = true ∧
      stringLoop c o bytes s = { s.ran (stringEvents c bytes waits) with bf := f, attempt := k, upc := u }
  | [], s => by
    refine ⟨[], s.bf, s.attempt, s.upc, rfl, List.forall_mem_nil _, rfl, ?_⟩
    simp [stringLoop, stringEvents, State.ran, Pins.replay]
  | b :: bytes, s => by
    obtain ⟨w, hw, hans, hrun⟩ := writeChar_spec c o b (s.tick.goto 0)
    obtain ⟨waits, f, k, u, hlen, hwaits, hrest, hloop⟩ :=
      stringLoop_spec c o bytes ((s.tick.call (writeChar c o b)).tick.goto 1)
    refine ⟨w :: waits, f, k, u, congrArg (· + 1) hlen, List.forall_mem_cons.2 ⟨hw, hwaits⟩, ?_, ?_⟩
    · rw [State.call, hrun] at hrest
      rw [stringEvents_cons, answeredBy_append, Bool.and_eq_true]
      exact ⟨hans, hrest⟩
    · rw [stringLoop, hloop, State.call, hrun, stringEvents_cons, State.ran_append s]
      rfl

theorem stringLoop_append (c : Cfg) (o : Oracle) (bytes rest : List Byte) :
    ∀ s : State, stringLoop c o (bytes ++ rest) s = stringLoop c o rest (stringLoop c o bytes s) := by
  induction bytes with
  | nil => exact fun _ => rfl
  | cons b bytes ih => exact fun s => ih _

/-- WRITE_CHAR leaves the latches restored by its wait, with the byte's low nibble and `RS` asserted (R127). -/
theorem writeChar_pins {c : Cfg} (hn : 1 ≤ c.nPollMax) (o : Oracle) (b : Byte) (s : State) :
    (writeChar c o b s).pins = { s.pins.restored with dbOut := some (lo b), rs := some .asserted } := by
  obtain ⟨w, hw, -, hrun⟩ := writeChar_spec c o b s
  rw [hrun, State.goto_pins, s.ran_waitThenByte c b .data hw (isWaitOf_ne_nil hn hw)]
  rfl

/-- Settles O37: the trace is that of the loop, and the latches are those of the last WRITE_CHAR. -/
theorem writeStringResult : Obligations.WriteStringResult := by
  intro c o bytes s hn
  obtain ⟨waits, f, k, u, hlen, hwaits, hans, hrun⟩ := stringLoop_spec c o bytes s.tick
  have hwrite : writeString c o bytes s =
      { s.tick.ran (stringEvents c bytes waits) with bf := f, attempt := k, upc := u } := hrun
  refine ⟨waits, hlen, hwaits, by rw [hwrite]; rfl, hans, ?_, fun b hb => ?_, by rw [hwrite]; rfl,
    by rw [hwrite]; rfl, by rw [hwrite]; rfl⟩
  · rintro rfl
    exact ⟨rfl, rfl, rfl, rfl⟩
  · obtain ⟨front, rfl⟩ := List.getLast?_eq_some_iff.1 hb
    have hlast : (writeString c o (front ++ [b]) s).pins =
        (writeChar c o b ((stringLoop c o front s.tick).tick.goto 0)).pins := by
      simp only [writeString, stringLoop_append, stringLoop, State.call, State.goto_pins, State.tick_pins]
    rw [hlast, writeChar_pins hn]
    exact ⟨rfl, rfl, rfl, rfl, rfl⟩

/-! ## INIT (R140, R143) -/

/-- The state at rest fixes every latch but `RS` and `DB_OUT` (R176). -/
theorem Pins.AtRest.eq_of_driven {p : Pins} (h : p.AtRest) {l : Level} {v : Nibble} (hrs : p.rs = some l)
    (hdb : p.dbOut = some v) :
    p = ⟨some v, some .deasserted, some l, some .deasserted, some .output, true, true, true, true⟩ := by
  obtain ⟨dbOut, e, rs, rw, dir, cfgData, cfgE, cfgRs, cfgRw⟩ := p
  obtain ⟨rfl, rfl, rfl, rfl, rfl, rfl, rfl⟩ := h
  obtain rfl := hrs
  obtain rfl := hdb
  rfl

/-- The latches after INIT are those of R31, from any latches. -/
theorem Pins.replay_initEvents (p : Pins) (c : Cfg) (w1 w2 w3 w4 : List Answer) :
    p.replay (initEvents c w1 w2 w3 w4) =
      ⟨some (lo c.cmdEntryModeLtr), some .deasserted, some .deasserted, some .deasserted, some .output,
        true, true, true, true⟩ := by
  have hblocks := (blocks_bootstrapEvents c).append (blocks_configureEvents c w1 w2 w3 w4)
  have hrest : (p.replay (initEvents c w1 w2 w3 w4)).AtRest := by
    rw [initEvents_eq, List.append_assoc, Pins.replay_append]
    exact (p.atRest_initSetup c).blocks hblocks
  obtain ⟨hrs, hdb⟩ := p.replay_initEvents_rs_dbOut c w1 w2 w3 w4
  exact hrest.eq_of_driven hrs hdb

/-- Settles O33: INIT's latches are those of R31, and its last wait leaves `BF` and `ATTEMPT`. -/
theorem initResult : Obligations.InitResult := by
  intro s h
  refine ⟨decode_encode .init, ?_⟩
  obtain ⟨e, he, hans, hrun⟩ := exec_effect (i := .init) h
  cases he with
  | @init w1 w2 w3 w4 hw1 hw2 hw3 hw4 =>
    have hflag : flagAfter s.bf (w1 ++ w2 ++ w3 ++ w4) = some (waitResultOf w4 == .exhausted) := by
      rw [flagAfter_append, flagAfter_wait _ hw4 (isWaitOf_ne_nil Config.one_le_nPollMax hw4)]
    refine ⟨w1, w2, w3, w4, by simp [hw1, hw2, hw3, hw4], hans, ?_⟩
    rw [hrun, State.completed, State.ran, Pins.replay_initEvents, hflag]
    rfl

/-- Every read that a device answered is an answer of the device. -/
theorem exists_oracle_of_mem {o : Oracle} {v : Nibble} {evs tr : List PinEvent} (h : answeredBy o tr evs = true)
    (hv : .readBus v ∈ evs) : ∃ tr', v = o tr' := by
  obtain ⟨before, after, rfl⟩ := List.append_of_mem hv
  simp only [answeredBy_append, answeredBy, Bool.and_eq_true, beq_iff_eq] at h
  exact ⟨tr ++ before, h.2.1⟩

theorem readBus_mem_pollEvents (c : Cfg) {a : Answer} : ∀ {w : List Answer} (made : Nat), a ∈ w →
    .readBus a.1 ∈ pollEvents c made w
  | x :: rest, made, h => by
    rw [pollEvents, List.mem_append, List.mem_append]
    obtain rfl | h := List.mem_cons.1 h
    · exact .inl (by simp [readBusyEvents, readPulseEvents])
    · exact .inr (.inr (readBus_mem_pollEvents c (made + 1) h))

/-- A device whose every answer has the same flag gives it to every poll. -/
theorem flags_of_device {c : Cfg} {o : Oracle} {tr evs : List PinEvent} {flag : Bool} {w : List Answer}
    (hdev : ∀ tr, busyFlagOf (o tr) = flag) (hans : answeredBy o tr evs = true) (hsub : waitEvents c w ⊆ evs) :
    ∀ a ∈ w, busyFlagOf a.1 = flag := by
  intro a ha
  obtain ⟨tr', htr'⟩ := exists_oracle_of_mem hans (hsub (readBus_mem_pollEvents c 0 ha))
  rw [htr', hdev]

theorem waitEvents_length_of_ready {c : Cfg} (hn : 1 ≤ c.nPollMax) {w : List Answer}
    (hw : isWaitOf c.nPollMax w = true) (hr : ∀ a ∈ w, busyFlagOf a.1 = false) : (waitEvents c w).length = 19 := by
  obtain ⟨a, rfl⟩ := List.length_eq_one_iff.1 (length_eq_one_of_all_ready hn hw hr)
  rw [waitEvents_length_eq, delayCount, hr a List.mem_cons_self]
  rfl

theorem waitEvents_length_of_busy {c : Cfg} (hn : 1 ≤ c.nPollMax) (hd : c.pollDelayAfterLast = false)
    {w : List Answer} (hw : isWaitOf c.nPollMax w = true) (hb : ∀ a ∈ w, busyFlagOf a.1 = true) :
    (waitEvents c w).length = 20 * c.nPollMax - 1 := by
  have hlen := waitEvents_length_of_wait hw (isWaitOf_ne_nil hn hw)
  simp only [length_eq_of_all_busy hw hb, hd, Bool.false_eq_true, and_false, if_false] at hlen
  omega

theorem waits_subset_configureEvents (c : Cfg) (w1 w2 w3 w4 : List Answer) :
    ∀ w ∈ [w1, w2, w3, w4], waitEvents c w ⊆ configureEvents c w1 w2 w3 w4 := by
  simp only [configureEvents, commandEvents, List.forall_mem_cons, List.subset_def, List.mem_append]
  grind

/-- The four commands of INIT, each behind a wait of this many events (R143). -/
theorem configureEvents_length {c : Cfg} {w1 w2 w3 w4 : List Answer} {k : Nat}
    (hk : ∀ w ∈ [w1, w2, w3, w4], (waitEvents c w).length = k) :
    (configureEvents c w1 w2 w3 w4).length = 4 * (k + 16) + 1 := by
  simp only [List.forall_mem_cons] at hk
  obtain ⟨h1, h2, h3, h4, -⟩ := hk
  simp only [configureEvents, List.length_append, commandEvents_length, h1, h2, h3, h4, List.length_singleton]
  omega

theorem busValues_configureEvents_length (c : Cfg) (w1 w2 w3 w4 : List Answer) :
    (busValues (configureEvents c w1 w2 w3 w4)).length = 8 := by
  simp only [configureEvents, busValues_append, busValues_commandEvents]
  rfl

theorem bootstrapEvents_length (c : Cfg) : (bootstrapEvents c).length =
    (match c.boot02Form with | .byte => 8 + 1 + 16 + 1 + 16 + 1 | .nibble => 8 + 1 + 8 + 1 + 8 + 1) := by
  unfold bootstrapEvents boot02Events
  cases c.boot02Form <;> rfl

theorem busValues_bootstrapEvents_length (c : Cfg) :
    (busValues (bootstrapEvents c)).length = (match c.boot02Form with | .byte => 5 | .nibble => 3) := by
  unfold bootstrapEvents boot02Events
  cases c.boot02Form <;> rfl

/-- Settles O35: the configuration part is the four commands; the device decides how long their waits are. -/
theorem initSizes : Obligations.InitSizes := by
  intro c o s t hn h
  obtain ⟨e, he, hans, rfl⟩ := execAt_effect h
  cases he with
  | @init w1 w2 w3 w4 hw1 hw2 hw3 hw4 =>
    have hwaits : ∀ w ∈ [w1, w2, w3, w4], isWaitOf c.nPollMax w = true := by simp [hw1, hw2, hw3, hw4]
    have htr : (s.trace ++ initEvents c w1 w2 w3 w4) =
        s.trace ++ (initSetup c ++ (bootstrapEvents c ++ configureEvents c w1 w2 w3 w4)) := by
      rw [initEvents_eq, List.append_assoc]
    have hflags {flag : Bool} (hdev : ∀ tr, busyFlagOf (o tr) = flag) :
        ∀ w ∈ [w1, w2, w3, w4], ∀ a ∈ w, busyFlagOf a.1 = flag := fun w hw => by
      refine flags_of_device hdev hans (List.Subset.trans (waits_subset_configureEvents c w1 w2 w3 w4 w hw) ?_)
      rw [initEvents_eq]
      exact List.subset_append_right ..
    refine ⟨configureEvents c w1 w2 w3 w4, htr, rfl, bootstrapEvents_length c, fun hdev => ?_, fun hdev hd => ?_,
      busValues_bootstrapEvents_length c, busValues_configureEvents_length c w1 w2 w3 w4⟩
    · have hconf := configureEvents_length fun w hw =>
        waitEvents_length_of_ready hn (hwaits w hw) (hflags hdev w hw)
      refine ⟨hconf, ?_⟩
      have hsetup : (initSetup c).length = 9 := rfl
      rw [State.completed_trace, htr, List.length_append, List.length_append, List.length_append, hconf, hsetup,
        bootstrapEvents_length]
      cases c.boot02Form <;> rfl
    · exact configureEvents_length fun w hw =>
        waitEvents_length_of_busy hn hd (hwaits w hw) (hflags hdev w hw)

end Sys2Proof.Machine
end

section
/-! PROOFS of the family of the exceptions (spec/60_exceptions.md): the refusals of the command port (R159) and the two
error kinds the block records and does not report (R151). -/

namespace Sys2Proof.Machine

/-! ## What the port refuses (R159) -/

/-- The port answers what it has to refuse before any operation runs (R158). -/
theorem exec_refused {i : Instr} {s : State} {r : Refusal} (h : portRefusal i s = some r) : exec i s = .refused r := by
  rw [exec_eq_execAt, execAt_eq, h, atPort]

theorem exists_exec_next_iff (i : Instr) (s : State) : (∃ t, exec i s = .next t) ↔ portRefusal i s = none := by
  simp only [exec_eq_execAt, exists_execAt_next_iff, portRefusal_eq_none_iff]

theorem portRefusal_of_uninit (i : Instr) {s : State} (hu : s.upc = 0) (hp : s.pstate = .uninit) :
    portRefusal i s = if i = .init then none else some .notInitialised := by
  simp [portRefusal, refusalOfInit, refusalOfOther, State.running, hu, hp]

theorem portRefusal_of_ready (i : Instr) {s : State} (hu : s.upc = 0) (hp : s.pstate = .ready) :
    portRefusal i s = if i = .init then some .alreadyInitialised else none := by
  simp [portRefusal, refusalOfInit, refusalOfOther, State.running, hu, hp]

/-- Settles O10: with no operation running PSTATE alone decides what is refused, and an answered operation leaves
READY. -/
theorem portAcceptsByProtocolState : Obligations.PortAcceptsByProtocolState := by
  intro i s hu
  refine ⟨fun hp => ?_, fun hp => ?_, fun t h => ?_⟩
  · have hport := portRefusal_of_uninit i hu hp
    exact ⟨fun hi => (exists_exec_next_iff i s).2 (hport.trans (if_pos hi)),
      fun hi => exec_refused (hport.trans (if_neg hi))⟩
  · have hport := portRefusal_of_ready i hu hp
    exact ⟨fun hi => exec_refused (hport.trans (if_pos hi)),
      fun hi => (exists_exec_next_iff i s).2 (hport.trans (if_neg hi))⟩
  · obtain ⟨e, -, -, rfl⟩ := execAt_effect ((exec_eq_execAt i s).symm.trans h)
    exact nofun

/-! ## What the block records of its errors (R70, R151) -/

/-- A wait leaves a timeout recorded exactly where it returns EXHAUSTED. -/
theorem timeoutRecorded_of_wait {c : Cfg} (hn : 1 ≤ c.nPollMax) {w : List Answer}
    (hw : isWaitOf c.nPollMax w = true) {s : State} {old : Option Bool} (hbf : s.bf = flagAfter old w)
    (hattempt : s.attempt = w.length) : timeoutRecorded c s = (waitResultOf w == .exhausted) := by
  rw [timeoutRecorded, hbf, hattempt, flagAfter_wait old hw (isWaitOf_ne_nil hn hw)]
  cases hr : waitResultOf w with
  | ready => rfl
  | exhausted =>
    have hlen : w.length = c.nPollMax := length_eq_of_all_busy hw ((waitResultOf_eq_exhausted_iff w).1 hr)
    simp [hlen]

/-- Settles O39: the results are read off the effect, and what a wait leaves in `BF` and `ATTEMPT` says how it ended. -/
theorem errorsAreAbsorbed : Obligations.ErrorsAreAbsorbed := by
  refine ⟨fun c o s t hn h => ?_, fun c o row col s t h => ?_, fun c o s t h => ?_, fun c o i s t h => ?_⟩ <;>
    obtain ⟨e, he, -, rfl⟩ := execAt_effect h
  · cases he with
    | @waitReady w hw =>
      refine ⟨_, rfl, ?_⟩
      rw [timeoutRecorded_of_wait hn hw rfl rfl]
      cases waitResultOf w with
      | ready => exact .inl ⟨rfl, rfl, rfl⟩
      | exhausted => exact .inr ⟨rfl, rfl, rfl⟩
  · refine ⟨e.result, rfl, ?_⟩
    cases he with
    | cursorIssued hin => exact .inl ⟨hin, rfl, rfl⟩
    | cursorDropped hout => exact .inr ⟨hout, rfl, rfl, completed_cursorDropped (execAt_next h).1⟩
  · cases he with
    | readBusy => exact ⟨_, rfl, rfl, rfl⟩
  · cases he with
    | sendNibble | sendByte | init | writeCommand | writeChar | clear => rfl
    | readBusy | waitReady | cursorIssued | cursorDropped => trivial

end Sys2Proof.Machine
end

section
/-! PROOFS of the family of reset and hazards (spec/70_reset_and_hazards.md): the trace keeps the timing and the
sequencing of R187 through every operation (`Passes`), shown once for the pieces operations are made of; then the rest,
the turn of the bus, the waits before bytes, and the sizes of R182 and R189. -/

namespace Sys2Proof.Machine

/-! ## Watching a trace (R187) -/

theorem Watch.afterAll_append (w : Watch) (a b : List PinEvent) :
    w.afterAll (a ++ b) = (w.afterAll a).afterAll b := List.foldl_append

theorem Watch.afterAll_pins (evs : List PinEvent) : ∀ w : Watch, (w.afterAll evs).pins = w.pins.replay evs := by
  induction evs with
  | nil => exact fun _ => rfl
  | cons ev evs ih => exact fun w => ih (w.after ev)

theorem timingHolds_append (c : Cfg) (a b : List PinEvent) : ∀ w : Watch,
    timingHolds c w (a ++ b) = (timingHolds c w a && timingHolds c (w.afterAll a) b) := by
  induction a with
  | nil => exact fun _ => rfl
  | cons ev a ih =>
    intro w
    exact (congrArg (_ && ·) (ih (w.after ev))).trans (Bool.and_assoc ..).symm

theorem sequencingHolds_append (c : Cfg) (a b : List PinEvent) : ∀ w : Watch,
    sequencingHolds c w (a ++ b) = (sequencingHolds c w a && sequencingHolds c (w.afterAll a) b) := by
  induction a with
  | nil => exact fun _ => rfl
  | cons ev a ih =>
    intro w
    exact (congrArg (_ && ·) (ih (w.after ev))).trans (Bool.and_assoc ..).symm

/-- The latches at rest and no pulse open: any operation may follow, as far as the order of events goes. -/
def Watch.Quiet (w : Watch) : Prop := w.pins.AtRest ∧ w.sinceAssert = none

/-- A pulse that was closed has settled, or something has followed it. -/
def Watch.Settled (c : Cfg) (w : Watch) : Prop := atLeast c.tSettleMin w.sinceClose = true

/-- What the pin set-up of INIT asks of the latches it finds: `E` and `RW` are not asserted, and no pulse is open. -/
def Watch.Low (w : Watch) : Prop :=
  w.pins.e ≠ some .asserted ∧ w.pins.rw ≠ some .asserted ∧ w.sinceAssert = none

theorem Watch.Quiet.low {w : Watch} (h : w.Quiet) : w.Low := by
  obtain ⟨⟨he, hrw, -⟩, hopen⟩ := h
  exact ⟨by simp [he], by simp [hrw], hopen⟩

theorem Watch.low_start_reset : (Watch.start Pins.reset).Low := ⟨nofun, nofun, rfl⟩

@[simp] theorem atLeast_none (t : Rat) : atLeast t none = true := rfl

theorem atLeast_mono {t : Rat} {a b : Nat} (h : atLeast t (some a) = true) (hab : a ≤ b) :
    atLeast t (some b) = true := by
  have ht : t ≤ (a : Rat) := of_decide_eq_true h
  have hle : (a : Rat) ≤ (b : Rat) := by exact_mod_cast hab
  exact decide_eq_true (ht.trans hle)

/-- Time that passes unsettles nothing. -/
theorem atLeast_map_add {t : Rat} {since : Option Nat} (h : atLeast t since = true) (n : Nat) :
    atLeast t (since.map (· + n)) = true := by
  cases since with
  | none => rfl
  | some k => exact atLeast_mono h (Nat.le_add_right k n)

/-! What each piece leaves to look back on, whatever stood before it. -/

theorem Watch.afterAll_writeCycle (w : Watch) (c : Cfg) (v : Nibble) (m : Mode) :
    w.afterAll (writeCycle c v m) =
      ⟨w.pins.replay (writeCycle c v m), some (pulseUs c), none, some c.dSettleUs⟩ := by
  cases m <;>
    simp [Watch.afterAll, Watch.after, writeCycle, drive, levelOf, isLineEvent, dur, Pins.apply, Pins.setLine,
      Pins.replay, pulseUs]

theorem Watch.afterAll_readBusyEvents (w : Watch) (c : Cfg) (n1 n2 : Nibble) :
    w.afterAll (readBusyEvents c n1 n2) = ⟨w.pins.replay (readBusyEvents c n1 n2), some 0, none, none⟩ := by
  simp [Watch.afterAll, Watch.after, readBusyEvents, readPulseEvents, readPulseOpen, readPulseClose, isLineEvent,
    Pins.replay]

theorem Watch.afterAll_initSetup (w : Watch) (c : Cfg) :
    w.afterAll (initSetup c) = ⟨w.pins.replay (initSetup c), some (1000 * c.dPowerupMs), none, none⟩ := by
  simp [Watch.afterAll, Watch.after, initSetup, isLineEvent, dur, Pins.replay]

/-- A write nibble cycle meets TV1 to TV3 exactly where the pulse before it has settled and its set-up and its width are
long enough. -/
theorem timingHolds_writeCycle_iff {w : Watch} (h : w.Quiet) (c : Cfg) (v : Nibble) (m : Mode) :
    timingHolds c w (writeCycle c v m) = true ↔
      w.Settled c ∧ c.tSetupMin ≤ c.dSetupUs ∧ c.tPwMin ≤ c.dPulseUs := by
  obtain ⟨⟨he, -⟩, hopen⟩ := h
  cases m <;>
    simp [timingHolds, tv1, tv2, tv3, mayStandInPulse, atLeast, Watch.Settled, Watch.after, writeCycle, drive, levelOf,
      isLineEvent, dur, Pins.apply, Pins.setLine, he, hopen]

theorem sequencingHolds_writeCycle {w : Watch} (h : w.Quiet) (c : Cfg) (v : Nibble) (m : Mode) :
    sequencingHolds c w (writeCycle c v m) = true := by
  obtain ⟨⟨-, hrw, hdir, -⟩, hopen⟩ := h
  cases m <;>
    simp [sequencingHolds, tv4, tv5, mayStandInPulse, Watch.after, writeCycle, drive, levelOf, Pins.apply,
      Pins.setLine, hrw, hdir, hopen]

/-- A READ_BUSY meets TV1 to TV3 where the pulse before it has settled: its second pulse finds its first one settled,
and its line events up to there lie before both. -/
theorem timingHolds_readBusyEvents {c : Cfg} (hc : c.TimingValid) {w : Watch} (h : w.Quiet) (hs : w.Settled c)
    (n1 n2 : Nibble) : timingHolds c w (readBusyEvents c n1 n2) = true := by
  obtain ⟨⟨he, -⟩, hopen⟩ := h
  obtain ⟨hsetup, hpulse, hsettle⟩ := hc
  replace hsetup : atLeast c.tSetupMin (some c.dSetupUs) = true := decide_eq_true hsetup
  replace hpulse : atLeast c.tPwMin (some c.dPulseUs) = true := decide_eq_true hpulse
  replace hsettle : atLeast c.tSettleMin (some c.dSettleUs) = true := decide_eq_true hsettle
  have hsettled : atLeast c.tSettleMin (some (c.dSettleUs + c.dSetupUs)) = true :=
    atLeast_mono hsettle (Nat.le_add_right ..)
  have hsecond : atLeast c.tSetupMin (some (c.dSetupUs + c.dPulseUs + c.dSettleUs + c.dSetupUs)) = true :=
    atLeast_mono hsetup (Nat.le_add_left ..)
  rw [Watch.Settled] at hs
  simp [timingHolds, tv1, tv2, tv3, mayStandInPulse, Watch.after, readBusyEvents, readPulseEvents, readPulseOpen,
    readPulseClose, isLineEvent, dur, Pins.apply, Pins.setLine, he, hopen, hs, hsetup, hpulse, hsettle, hsettled,
    hsecond]

/-- READ_BUSY turns `DIR` before `RW` and back after it, and reads only inside its pulses. -/
theorem sequencingHolds_readBusyEvents {w : Watch} (h : w.Quiet) (c : Cfg) (n1 n2 : Nibble) :
    sequencingHolds c w (readBusyEvents c n1 n2) = true := by
  obtain ⟨⟨-, hrw, -⟩, hopen⟩ := h
  simp [sequencingHolds, tv4, tv5, Pins.NoContention, mayStandInPulse, Watch.after, readBusyEvents, readPulseEvents,
    readPulseOpen, readPulseClose, dur, Pins.apply, Pins.setLine, hrw, hopen]

theorem timingHolds_initSetup {c : Cfg} {w : Watch} (h : w.Low) (hs : w.Settled c) :
    timingHolds c w (initSetup c) = true := by
  obtain ⟨he, -, hopen⟩ := h
  rw [Watch.Settled] at hs
  simp [timingHolds, tv1, tv2, tv3, Watch.after, initSetup, isLineEvent, dur, Pins.apply, Pins.setLine,
    Pins.configure, he, hopen, hs]

theorem sequencingHolds_initSetup {w : Watch} (h : w.Low) (c : Cfg) : sequencingHolds c w (initSetup c) = true := by
  obtain ⟨-, hrw, hopen⟩ := h
  simp [sequencingHolds, tv4, tv5, Pins.NoContention, Watch.after, initSetup, Pins.apply, Pins.setLine,
    Pins.configure, hrw, hopen]

/-! ## Every operation keeps the trace valid -/

/-- What the events of an operation do to a trace that is watched up to `w`: the sequencing of R187 holds and the watch
is left quiet, whatever the constants; with a timing-valid configuration and the last pulse settled, TV1 to TV3 hold and
the last pulse has settled again. -/
structure Passes (c : Cfg) (w : Watch) (evs : List PinEvent) : Prop where
  sequencing : sequencingHolds c w evs = true
  quiet : (w.afterAll evs).Quiet
  timing : c.TimingValid → w.Settled c → timingHolds c w evs = true
  settled : c.TimingValid → w.Settled c → (w.afterAll evs).Settled c

theorem Passes.nil {c : Cfg} {w : Watch} (h : w.Quiet) : Passes c w [] := ⟨rfl, h, fun _ _ => rfl, fun _ hs => hs⟩

theorem Passes.append {c : Cfg} {w : Watch} {a b : List PinEvent} (ha : Passes c w a)
    (hb : Passes c (w.afterAll a) b) : Passes c w (a ++ b) where
  sequencing := by rw [sequencingHolds_append, ha.sequencing, hb.sequencing, Bool.and_self]
  quiet := by rw [Watch.afterAll_append]; exact hb.quiet
  timing hc hs := by rw [timingHolds_append, ha.timing hc hs, hb.timing hc (ha.settled hc hs), Bool.and_self]
  settled hc hs := by rw [Watch.afterAll_append]; exact hb.settled hc (ha.settled hc hs)

theorem passes_writeCycle {w : Watch} (h : w.Quiet) (c : Cfg) (v : Nibble) (m : Mode) :
    Passes c w (writeCycle c v m) where
  sequencing := sequencingHolds_writeCycle h c v m
  quiet := by rw [Watch.afterAll_writeCycle]; exact ⟨h.1.writeCycle c v m, rfl⟩
  timing hc hs := (timingHolds_writeCycle_iff h c v m).2 ⟨hs, hc.1, hc.2.1⟩
  settled hc _ := by rw [Watch.afterAll_writeCycle]; exact decide_eq_true hc.2.2

theorem passes_readBusyEvents {w : Watch} (h : w.Quiet) (c : Cfg) (n1 n2 : Nibble) :
    Passes c w (readBusyEvents c n1 n2) where
  sequencing := sequencingHolds_readBusyEvents h c n1 n2
  quiet := by rw [Watch.afterAll_readBusyEvents]; exact ⟨h.1.readBusyEvents c n1 n2, rfl⟩
  timing hc hs := timingHolds_readBusyEvents hc h hs n1 n2
  settled _ _ := by rw [Watch.afterAll_readBusyEvents]; rfl

theorem passes_initSetup {w : Watch} (h : w.Low) (c : Cfg) : Passes c w (initSetup c) where
  sequencing := sequencingHolds_initSetup h c
  quiet := by rw [Watch.afterAll_initSetup]; exact ⟨w.pins.atRest_initSetup c, rfl⟩
  timing _ hs := timingHolds_initSetup h hs
  settled _ _ := by rw [Watch.afterAll_initSetup]; rfl

/-- A delay is no line event and drives nothing: it only makes the time pass that the checks look back on. -/
theorem passes_delay {w : Watch} (h : w.Quiet) (c : Cfg) {ev : PinEvent}
    (hev : (∃ n, ev = .delayUs n) ∨ ∃ n, ev = .delayMs n) : Passes c w [ev] := by
  obtain ⟨⟨he, hrw, hdir, hcfg⟩, hopen⟩ := h
  rcases hev with ⟨n, rfl⟩ | ⟨n, rfl⟩
  all_goals
    refine ⟨?_, ⟨⟨he, hrw, hdir, hcfg⟩, ?_⟩, fun _ _ => ?_, fun _ hs => ?_⟩
    · simp [sequencingHolds, tv4, tv5, mayStandInPulse, Pins.NoContention, Pins.apply, hrw]
    · simp [Watch.afterAll, Watch.after, hopen]
    · simp [timingHolds, tv1, tv2, tv3, isLineEvent, hopen]
    · simpa [Watch.Settled, Watch.afterAll, Watch.after, isLineEvent] using atLeast_map_add hs _

/-- Whole cycles, reads and delays, one after another. -/
theorem passes_blocks {c : Cfg} {evs : List PinEvent} (hb : Blocks c evs) :
    ∀ {w : Watch}, w.Quiet → Passes c w evs := by
  induction hb with
  | nil => exact fun h => .nil h
  | write v m _ ih =>
    intro w h
    have hpiece := passes_writeCycle h c v m
    exact hpiece.append (ih hpiece.quiet)
  | read n1 n2 _ ih =>
    intro w h
    have hpiece := passes_readBusyEvents h c n1 n2
    exact hpiece.append (ih hpiece.quiet)
  | delayUs n _ ih =>
    intro w h
    have hpiece := passes_delay h c (.inl ⟨n, rfl⟩)
    exact hpiece.append (ih hpiece.quiet)
  | delayMs n _ ih =>
    intro w h
    have hpiece := passes_delay h c (.inr ⟨n, rfl⟩)
    exact hpiece.append (ih hpiece.quiet)

/-- Every operation passes where the watch is quiet, and INIT where the lines are low. -/
theorem IsOperationEvents.passes {c : Cfg} {i : Instr} {evs : List PinEvent} (h : IsOperationEvents c i evs)
    {w : Watch} (hw : w.Quiet ∨ i = .init ∧ w.Low) : Passes c w evs := by
  unfold IsOperationEvents at h
  split at h
  · obtain ⟨rest, hrest, rfl⟩ := h
    have hsetup := passes_initSetup (hw.elim Watch.Quiet.low And.right) c
    exact hsetup.append (passes_blocks hrest hsetup.quiet)
  · next hi => exact passes_blocks h (hw.resolve_right fun hinit => hi hinit.1)

/-- Where the port accepts an instruction, a sound and timing-sound state has the watch that the instruction asks for:
INIT has no trace before it, and every other one a trace that ends at rest. -/
theorem State.TimingSound.watched {c : Cfg} {s : State} (ht : s.TimingSound c) (hs : s.Sound c) {i : Instr}
    (hacc : Accepts i s) : ((Watch.start Pins.reset).afterAll s.trace).Quiet ∨
      i = .init ∧ ((Watch.start Pins.reset).afterAll s.trace).Low := by
  by_cases hi : i = .init
  · obtain ⟨htr, -⟩ := hs.before_init (hacc.eq_init_iff.1 hi)
    rw [htr]
    exact .inr ⟨hi, Watch.low_start_reset⟩
  · obtain ⟨hrest, -⟩ := hs.after_init (hacc.ready hi)
    rw [hs.pins_eq] at hrest
    exact .inl ⟨by rwa [Watch.afterAll_pins], ht.closed⟩

/-- Every instruction the port answers keeps the trace valid, for every device. -/
theorem execAt_keeps_timingSound {c : Cfg} (hc : c.TimingValid) {o : Oracle} {i : Instr} {s t : State}
    (hs : s.Sound c) (ht : s.TimingSound c) (h : execAt c o i s = .next t) : t.TimingSound c := by
  obtain ⟨e, -, -, rfl⟩ := execAt_effect h
  have hev : IsOperationEvents c i e.events := isOperationEvents_of_execAt h rfl
  have hpass := hev.passes (ht.watched hs (execAt_next h).1)
  constructor
  · rw [State.completed_trace, timingHolds_append, ht.timing, hpass.timing hc ht.settled, Bool.and_self]
  · rw [State.completed_trace, sequencingHolds_append, ht.sequencing, hpass.sequencing, Bool.and_self]
  · rw [State.completed_trace, Watch.afterAll_append]
    exact hpass.settled hc ht.settled
  · rw [State.completed_trace, Watch.afterAll_append]
    exact hpass.quiet.2

theorem State.TimingSound.withCommands {c : Cfg} {s : State} (h : s.TimingSound c) (ws : List CommandWord) :
    ({ s with commands := ws } : State).TimingSound c :=
  ⟨h.timing, h.sequencing, h.settled, h.closed⟩

theorem le_max_ceil_toNat (t : Rat) (d : Nat) : t ≤ (max d t.ceil.toNat : Nat) := by
  calc t ≤ (t.ceil : Rat) := Rat.le_ceil
    _ ≤ ((t.ceil.toNat : Int) : Rat) := by exact_mod_cast Int.self_le_toNat t.ceil
    _ ≤ ((max d t.ceil.toNat : Nat) : Rat) := by exact_mod_cast Nat.le_max_right d t.ceil.toNat

/-- An admissible configuration is timing-valid (R4; log entry 2). -/
theorem Config.timingValid : Config.cfg.TimingValid :=
  ⟨le_max_ceil_toNat _ _, le_max_ceil_toNat _ _, le_max_ceil_toNat _ _⟩

/-- Settles O46: a step idles or runs one instruction, whose events pass from what has been watched of the trace. -/
theorem stepKeepsTimingSound : Obligations.StepKeepsTimingSound := by
  intro s t hs ht h
  rw [step_eq_stepAt] at h
  obtain ⟨-, rfl⟩ | ⟨w, ws, i, -, -, hexec⟩ := stepAt_next h
  · exact ht
  · exact execAt_keeps_timingSound Config.timingValid (hs.withCommands ws) (ht.withCommands ws) hexec

/-- Settles O45: the trace is empty and no pulse has been seen. -/
theorem resetIsTimingSound : Obligations.ResetIsTimingSound := fun _ => ⟨rfl, rfl, rfl, rfl⟩

/-- Settles O49: the sequencing part of what every operation passes. -/
theorem sequencingHoldsUnconditionally : Obligations.SequencingHoldsUnconditionally := by
  intro c o i s t h hp
  obtain ⟨e, -, -, rfl⟩ := execAt_effect h
  have hev : IsOperationEvents c i e.events := isOperationEvents_of_execAt h rfl
  refine ⟨e.events, rfl, (hev.passes ?_).sequencing⟩
  refine hp.imp (fun hrest => ⟨hrest, rfl⟩) fun ⟨hi, hreset⟩ => ⟨hi, ?_⟩
  rw [hreset]
  exact Watch.low_start_reset

/-- Settles O42: the first cycle needs V1 and V2, and the second finds the pulse of the first settled only if V3
holds. -/
theorem timingValidityIsNecessary : Obligations.TimingValidityIsNecessary := by
  intro c p b m hp h
  have hquiet : (Watch.start p).Quiet := ⟨hp, rfl⟩
  rw [byteEvents, timingHolds_append, Bool.and_eq_true, timingHolds_writeCycle_iff hquiet,
    timingHolds_writeCycle_iff (passes_writeCycle hquiet c _ m).quiet, Watch.afterAll_writeCycle] at h
  obtain ⟨⟨-, hsetup, hpulse⟩, hsettled, -⟩ := h
  exact ⟨hsetup, hpulse, of_decide_eq_true hsettled⟩

/-! ## Rest and the turn of the bus (R173, R176) -/

/-- Settles O47: INIT's set-up establishes the state at rest, and whole cycles, reads and delays keep it. -/
theorem operationsKeepRest : Obligations.OperationsKeepRest := by
  intro c o i s t h
  obtain ⟨e, -, -, rfl⟩ := execAt_effect h
  have hev : IsOperationEvents c i e.events := isOperationEvents_of_execAt h rfl
  exact ⟨fun hp => hev.atRest fun _ => hp, fun hi => hev.atRest (absurd hi)⟩

/-- Settles O52: the port accepts an operation but INIT in READY, where a sound state is at rest, and every operation
ends at rest. -/
theorem publicOperationsStartAndEndInOutput : Obligations.PublicOperationsStartAndEndInOutput := by
  intro i s t hs _ h
  rw [exec_eq_execAt] at h
  have hstart (hi : i ≠ .init) : s.pins.AtRest := (hs.after_init ((execAt_next h).1.ready hi)).1
  obtain ⟨hkeeps, hinit⟩ := operationsKeepRest _ _ i s t h
  have hend : t.pins.AtRest := by
    by_cases hi : i = .init
    · exact hinit hi
    · exact hkeeps (hstart hi)
  exact ⟨fun hi => (hstart hi).2.2.1, hend.2.2.1⟩

/-- Events behind a list that has the property do not take it away: what it asks for stands in the list already. -/
theorem turnaroundHolds_append {b : List PinEvent} (hb : turnaroundHolds b = true) : ∀ {a : List PinEvent},
    turnaroundHolds a = true → turnaroundHolds (a ++ b) = true
  | [], _ => hb
  | ev :: evs, ha => by
    rw [turnaroundHolds, Bool.and_eq_true] at ha
    obtain ⟨hhere, hrest⟩ := ha
    rw [List.cons_append, turnaroundHolds, turnaroundHolds_append hb hrest, Bool.and_true]
    by_cases hev : ev = .setDir .input
    · simp only [hev, bne_self_eq_false, Bool.false_or, Bool.and_eq_true, beq_iff_eq] at hhere ⊢
      obtain ⟨hback, hbetween⟩ := hhere
      obtain ⟨hlen, -⟩ := List.getElem?_eq_some_iff.1 hback
      rw [List.getElem?_append_left hlen, List.take_append_of_le_length hlen.le]
      exact ⟨hback, hbetween⟩
    · simp [hev]

theorem turnaroundHolds_writeCycle (c : Cfg) (v : Nibble) (m : Mode) : turnaroundHolds (writeCycle c v m) = true := by
  cases m <;> rfl

theorem turnaroundHolds_blocks {c : Cfg} {evs : List PinEvent} (hb : Blocks c evs) : turnaroundHolds evs = true := by
  induction hb with
  | nil => rfl
  | write v m _ ih => exact turnaroundHolds_append ih (turnaroundHolds_writeCycle c v m)
  | read n1 n2 _ ih => exact turnaroundHolds_append ih rfl
  | delayUs n _ ih | delayMs n _ ih => exact turnaroundHolds_append ih rfl

/-- Settles O50: only a READ_BUSY turns the bus to INPUT, and it turns it back itself, 18 events later (R104). -/
theorem turnaroundInvariant : Obligations.TurnaroundInvariant := by
  intro c o i s t h hs
  obtain ⟨e, -, -, rfl⟩ := execAt_effect h
  have hev : IsOperationEvents c i e.events := isOperationEvents_of_execAt h rfl
  refine turnaroundHolds_append ?_ hs
  unfold IsOperationEvents at hev
  split at hev
  · obtain ⟨rest, hrest, hevs⟩ := hev
    rw [hevs]
    exact turnaroundHolds_append (turnaroundHolds_blocks hrest) rfl
  · exact turnaroundHolds_blocks hev

/-! ## A byte behind its wait (R174, R178) -/

/-- A wait ends at the first ready answer or at the bound (R120). -/
theorem last_ready_or_length_eq {n : Nat} {w : List Answer} (hw : isWaitOf n w = true) {a : Answer}
    (ha : w.getLast? = some a) : busyFlagOf a.1 = false ∨ w.length = n := by
  have hne : w ≠ [] := by rintro rfl; cases ha
  have hflag : some (busyFlagOf a.1) = some (waitResultOf w == .exhausted) := by
    rw [← flagAfter_wait none hw hne, flagAfter_eq_getLast? none hne, ha, Option.map_some]
  cases hr : waitResultOf w with
  | ready =>
    rw [hr] at hflag
    exact .inl (Option.some.inj hflag)
  | exhausted => exact .inr (length_eq_of_all_busy hw ((waitResultOf_eq_exhausted_iff w).1 hr))

theorem isWaitedByte_of_wait {c : Cfg} (hn : 1 ≤ c.nPollMax) {w : List Answer} (hw : isWaitOf c.nPollMax w = true)
    (b : Byte) (m : Mode) : IsWaitedByte c (waitEvents c w ++ byteEvents c b m) :=
  ⟨w, b, m, rfl, List.length_pos_iff.2 (isWaitOf_ne_nil hn hw), isWaitOf_length_le hw,
    fun _ ha => last_ready_or_length_eq hw ha⟩

/-- Settles O51: the operations that send a byte have the effect of one wait and the byte, and INIT that of four. -/
theorem waitBeforeTransmit : Obligations.WaitBeforeTransmit := by
  intro c o i s t hn h
  obtain ⟨e, he, -, rfl⟩ := execAt_effect h
  cases he with
  | sendNibble | sendByte | readBusy | waitReady => trivial
  | writeCommand _ hw | writeChar _ hw | clear hw => exact ⟨_, rfl, isWaitedByte_of_wait hn hw _ _⟩
  | cursorIssued hin hw => exact ⟨_, rfl, by rw [if_pos hin]; exact isWaitedByte_of_wait hn hw _ _⟩
  | cursorDropped hout => exact ⟨_, rfl, by simp [hout]⟩
  | init hw1 hw2 hw3 hw4 =>
    refine ⟨_, _, _, _, ?_, rfl⟩
    simp only [List.forall_mem_cons]
    exact ⟨isWaitedByte_of_wait hn hw1 _ _, isWaitedByte_of_wait hn hw2 _ _, isWaitedByte_of_wait hn hw3 _ _,
      isWaitedByte_of_wait hn hw4 _ _, List.forall_mem_nil _⟩

/-- Settles O27: every poll reads busy, so only the bound ends the wait, and the byte follows it. -/
theorem busyDeviceIsWrittenAnyway : Obligations.BusyDeviceIsWrittenAnyway := by
  intro c o ch s hn hdev h
  obtain ⟨t, ht⟩ := (exists_execAt_next_iff c o (.writeChar ch) s).2 h
  obtain ⟨e, he, hans, rfl⟩ := execAt_effect ht
  cases he with
  | @writeChar _ w hw =>
    have hbusy : ∀ a ∈ w, busyFlagOf a.1 = true := flags_of_device hdev hans (List.subset_append_left ..)
    refine ⟨w, length_eq_of_all_busy hw hbusy, hbusy, ?_, ?_⟩
    · rw [ht, ← completed_waitedByte h.2 hw (isWaitOf_ne_nil hn hw)]
      rfl
    · simp [State.afterWait, (waitResultOf_eq_exhausted_iff w).2 hbusy]

/-! ## The bootstrap (R142, R180) -/

/-- What TV6 asks behind the first `k` events of an INIT (R187). -/
def DelayStandsAt (evs : List PinEvent) (k : Nat) : Prop :=
  (decide (k ≤ evs.length) && delayBeforeNextPulse (evs.drop k)) = true

theorem delayStandsAt_append (front rest : List PinEvent) :
    DelayStandsAt (front ++ [.delayUs 40] ++ rest) front.length := by
  simp [DelayStandsAt, delayBeforeNextPulse]

theorem tv6_iff (c : Cfg) (evs : List PinEvent) : tv6 c evs = true ↔ ∀ k ∈ bootstrapEnds c, DelayStandsAt evs k :=
  List.all_eq_true

/-- A transmission of 17 events with the pin set-up and two of `0x02`, each with a delay of 40 us behind it: each ends
where its own delay stands. -/
theorem tv6_of_delays (c : Cfg) {first : List PinEvent} (hfirst : first.length = 17) (rest : List PinEvent) :
    tv6 c (first ++ [.delayUs 40] ++ boot02Events c ++ [.delayUs 40] ++ boot02Events c ++ [.delayUs 40] ++ rest) =
      true := by
  have h1 := delayStandsAt_append first (boot02Events c ++ [.delayUs 40] ++ boot02Events c ++ [.delayUs 40] ++ rest)
  have h2 := delayStandsAt_append (first ++ [.delayUs 40] ++ boot02Events c)
    (boot02Events c ++ [.delayUs 40] ++ rest)
  have h3 := delayStandsAt_append
    (first ++ [.delayUs 40] ++ boot02Events c ++ [.delayUs 40] ++ boot02Events c) rest
  simp only [List.length_append, List.length_singleton, hfirst, ← List.append_assoc] at h1 h2 h3
  have hthird : 17 + 1 + (boot02Events c).length + 1 + (boot02Events c).length =
    19 + 2 * (boot02Events c).length := by omega
  rw [hthird] at h3
  rw [tv6_iff, bootstrapEnds, List.forall_mem_cons, List.forall_mem_cons, List.forall_mem_singleton]
  exact ⟨h1, h2, h3⟩

theorem tv6_initEvents {c : Cfg} (hboot : c.dBootUs = 40) (w1 w2 w3 w4 : List Answer) :
    tv6 c (initEvents c w1 w2 w3 w4) = true := by
  have hfirst : (initSetup c ++ writeCycle c 0x3#4 .command).length = 17 := rfl
  have h := tv6_of_delays c hfirst (configureEvents c w1 w2 w3 w4)
  simpa only [initEvents_eq, bootstrapEvents, hboot, List.append_assoc] using h

/-- No read of the bus, and no turn of it. -/
def PollsNothing (evs : List PinEvent) : Prop := ∀ ev ∈ evs, ev ≠ .setDir .input ∧ ∀ v, ev ≠ .readBus v

theorem PollsNothing.append {a b : List PinEvent} (ha : PollsNothing a) (hb : PollsNothing b) :
    PollsNothing (a ++ b) := List.forall_mem_append.2 ⟨ha, hb⟩

theorem pollsNothing_writeCycle (c : Cfg) (v : Nibble) (m : Mode) : PollsNothing (writeCycle c v m) := by
  cases m <;> simp [PollsNothing, writeCycle, drive, levelOf]

theorem pollsNothing_delayUs (n : Nat) : PollsNothing [.delayUs n] := by simp [PollsNothing]

theorem pollsNothing_boot02Events (c : Cfg) : PollsNothing (boot02Events c) := by
  unfold boot02Events
  split
  · exact (pollsNothing_writeCycle c _ _).append (pollsNothing_writeCycle c _ _)
  · exact pollsNothing_writeCycle c _ _

theorem pollsNothing_bootstrapEvents (c : Cfg) : PollsNothing (bootstrapEvents c) :=
  (((((pollsNothing_writeCycle c _ _).append (pollsNothing_delayUs _)).append (pollsNothing_boot02Events c)).append
    (pollsNothing_delayUs _)).append (pollsNothing_boot02Events c)).append (pollsNothing_delayUs _)

/-- Settles O36: the bootstrap's transmissions are write cycles, each with its delay directly behind it. -/
theorem bootstrapUsesFixedDelays : Obligations.BootstrapUsesFixedDelays :=
  ⟨fun _ w1 w2 w3 w4 hboot => tv6_initEvents hboot w1 w2 w3 w4, fun c => pollsNothing_bootstrapEvents c,
    fun c w1 w2 w3 w4 => ⟨configureEvents c w1 w2 w3 w4, by rw [initEvents_eq, List.append_assoc]⟩⟩

/-! ## Sizes and durations (R182, R189) -/

theorem waitEvents_length_le {c : Cfg} {w : List Answer} (hw : isWaitOf c.nPollMax w = true) :
    (waitEvents c w).length ≤ 20 * c.nPollMax := by
  have hpolls : w.length ≤ c.nPollMax := isWaitOf_length_le hw
  have hdelays : delayCount c 0 w ≤ w.length := delayCount_le_length c w 0
  rw [waitEvents_length_eq]
  omega

theorem waitedByte_length_le {c : Cfg} {w : List Answer} (hw : isWaitOf c.nPollMax w = true) (b : Byte) (m : Mode) :
    (waitEvents c w ++ byteEvents c b m).length ≤ 20 * c.nPollMax + 16 := by
  rw [List.length_append, byteEvents_length]
  exact Nat.add_le_add_right (waitEvents_length_le hw) 16

theorem initEvents_length_le {c : Cfg} {w1 w2 w3 w4 : List Answer} (hw1 : isWaitOf c.nPollMax w1 = true)
    (hw2 : isWaitOf c.nPollMax w2 = true) (hw3 : isWaitOf c.nPollMax w3 = true)
    (hw4 : isWaitOf c.nPollMax w4 = true) : (initEvents c w1 w2 w3 w4).length ≤
      9 + 11 + (match c.boot02Form with | .byte => 32 | .nibble => 16) + 4 * (20 * c.nPollMax + 16) + 1 := by
  have h1 := waitEvents_length_le hw1
  have h2 := waitEvents_length_le hw2
  have h3 := waitEvents_length_le hw3
  have h4 := waitEvents_length_le hw4
  have hsetup : (initSetup c).length = 9 := rfl
  simp only [initEvents_eq, configureEvents, List.length_append, commandEvents_length, bootstrapEvents_length, hsetup,
    List.length_singleton]
  cases c.boot02Form <;> dsimp only <;> omega

theorem stringEvents_length_le {c : Cfg} : ∀ (bytes : List Byte) {waits : List (List Answer)},
    (∀ w ∈ waits, isWaitOf c.nPollMax w = true) →
    (stringEvents c bytes waits).length ≤ bytes.length * (20 * c.nPollMax + 16)
  | [], _, _ => Nat.zero_le _
  | _ :: _, [], _ => Nat.zero_le _
  | b :: bytes, w :: waits, h => by
    obtain ⟨hw, hwaits⟩ := List.forall_mem_cons.1 h
    rw [stringEvents_cons, List.length_append, List.length_cons, Nat.succ_mul, Nat.add_comm]
    exact Nat.add_le_add (stringEvents_length_le bytes hwaits) (waitedByte_length_le hw b .data)

/-- Settles O40: the events of each effect are counted, a wait by its polls and their delays. -/
theorem terminationBounds : Obligations.TerminationBounds := by
  refine ⟨fun c o i s t h => ?_, fun c o bytes s => ?_⟩
  · obtain ⟨e, he, -, rfl⟩ := execAt_effect h
    refine ⟨e.events, rfl, ?_⟩
    cases he with
    | sendNibble v m => exact writeCycle_length c v m
    | sendByte b m => exact byteEvents_length c b m
    | readBusy n1 n2 => exact readBusyEvents_length c n1 n2
    | init hw1 hw2 hw3 hw4 => exact initEvents_length_le hw1 hw2 hw3 hw4
    | waitReady hw => exact waitEvents_length_le hw
    | writeCommand _ hw | writeChar _ hw | clear hw => exact waitedByte_length_le hw _ _
    | cursorIssued _ hw => exact .inr (waitedByte_length_le hw _ _)
    | cursorDropped => exact .inl rfl
  · obtain ⟨waits, f, k, u, -, hwaits, -, hrun⟩ := stringLoop_spec c o bytes s.tick
    refine ⟨stringEvents c bytes waits, ?_, stringEvents_length_le bytes hwaits⟩
    rw [writeString, hrun]
    rfl

theorem nominal_delayUs (n : Nat) : nominal [.delayUs n] = n := rfl

theorem nominal_delayMs (n : Nat) : nominal [.delayMs n] = 1000 * n := rfl

theorem nominal_boot02Events (c : Cfg) :
    nominal (boot02Events c) = match c.boot02Form with | .byte => 2 * pulseUs c | .nibble => pulseUs c := by
  unfold boot02Events
  cases c.boot02Form with
  | byte => exact nominal_byteEvents c _ _
  | nibble => exact nominal_writeCycle c _ _

theorem nominal_commandEvents (c : Cfg) (w : List Answer) (cmd : Byte) :
    nominal (commandEvents c w cmd) = nominal (waitEvents c w) + 2 * pulseUs c := by
  rw [commandEvents, nominal_append, nominal_byteEvents]

theorem nominal_initSetup (c : Cfg) : nominal (initSetup c) = 1000 * c.dPowerupMs := by
  simp [nominal, initSetup, dur]

/-- Settles O41: the durations of the pieces are added up, the delays of a wait as they are counted. -/
theorem nominalDurations : Obligations.NominalDurations := by
  refine ⟨fun c w hw hne => ?_, fun c b m w => ?_, fun c w1 w2 w3 w4 hboot => ?_⟩
  · rw [nominal_waitEvents_eq, delayCount_wait (Nat.zero_add _) hw hne, Nat.mul_add, mul_ite, Nat.mul_one,
      Nat.mul_zero, Nat.add_assoc]
  · rw [nominal_append, nominal_byteEvents]
  · simp only [initEvents, bootstrapEvents, nominal_append, nominal_initSetup, nominal_writeCycle, nominal_delayUs,
      nominal_delayMs, nominal_boot02Events, nominal_commandEvents, hboot]
    cases c.boot02Form <;> dsimp only <;> omega

end Sys2Proof.Machine
end

section
/-! PROOFS about the configuration and the port: the admissible configuration (R4), the refusals of a running block
(R160), the device that is always ready (R120). -/

namespace Sys2Proof.Machine

/-! ## The configuration (R4) -/

/-- The minimums of V1 to V3 are below the delays raised to them (R186), and the masked base keeps only bit 7. -/
theorem toAdmissible_admissible (c : Cfg) : c.toAdmissible.Admissible :=
  ⟨⟨le_max_ceil_toNat _ _, le_max_ceil_toNat _ _, le_max_ceil_toNat _ _⟩, rfl, Nat.le_max_right c.nPollMax 1, by
    rw [Cfg.toAdmissible, BitVec.and_assoc]
    exact BitVec.and_zero⟩

/-- A delay that respects its minimum is not raised. -/
theorem max_ceil_toNat_eq_left {t : Rat} {d : Nat} (h : t ≤ d) : max d t.ceil.toNat = d :=
  Nat.max_eq_left (Int.toNat_le.2 (Rat.ceil_le_iff.2 (by exact_mod_cast h)))

theorem and_80_eq_self_of_and_7F {x : Byte} (h : x &&& 0x7F#8 = 0#8) : x &&& 0x80#8 = x := by
  calc x &&& 0x80#8 = (x &&& 0x80#8) ||| (x &&& 0x7F#8) := by rw [h, BitVec.or_zero]
    _ = x &&& 0xFF#8 := (BitVec.and_or_distrib_left ..).symm
    _ = x := and_FF_eq x

theorem toAdmissible_eq_self {c : Cfg} (h : c.Admissible) : c.toAdmissible = c := by
  obtain ⟨⟨hsetup, hpulse, hsettle⟩, hboot, hpoll, hbase⟩ := h
  rw [Cfg.toAdmissible, max_ceil_toNat_eq_left hsetup, max_ceil_toNat_eq_left hpulse, max_ceil_toNat_eq_left hsettle,
    ← hboot, Nat.max_eq_left hpoll, and_80_eq_self_of_and_7F hbase]

/-- Settles O12: the block's configuration is a value of `toAdmissible`, which changes no admissible record. -/
theorem configurationIsAdmissible : Obligations.ConfigurationIsAdmissible :=
  ⟨toAdmissible_admissible Config.choice, fun _ => toAdmissible_eq_self⟩

/-! ## The running block (R160) -/

theorem running_iff (s : State) : s.running = true ↔ s.upc ≠ 0 ∨ s.pstate = .initializing := by
  simp [State.running]

/-- Both refusals of R159 come after that of a running block. -/
theorem portRefusal_of_running (i : Instr) {s : State} (h : s.running = true) :
    portRefusal i s = some .operationRunning := by
  rw [portRefusal, refusalOfInit, refusalOfOther, if_pos h, if_pos h, ite_self]

/-- Settles O11: every operation's first refusal is that of a running block. -/
theorem runningBlockRefuses : Obligations.RunningBlockRefuses := fun i s h =>
  exec_refused (portRefusal_of_running i ((running_iff s).2 h))

/-! ## The ready device (R120) -/

theorem afterWait_single_ready (s : State) (c : Cfg) {a : Answer} (ha : busyFlagOf a.1 = false) :
    s.afterWait c [a] = { s.afterRead c a.1 a.2 with attempt := 1 } := by
  simp [State.afterWait, State.afterRead, waitResultOf, waitEvents, pollEvents, ha]

theorem completed_wait {s : State} (hs : s.pstate = .ready) (c : Cfg) {n : Nat} {w : List Answer}
    (hw : isWaitOf n w = true) (hne : w ≠ []) :
    s.completed ⟨waitEvents c w, .wait (waitResultOf w), flagAfter s.bf w, w.length⟩ =
      (s.afterWait c w).complete (.wait (waitResultOf w)) := by
  rw [← s.ran_waitEvents c hw hne, State.completed, ← hs]
  rfl

/-- Settles O26: the first poll reads ready, so the wait is that one poll. -/
theorem readyDeviceIsPolledOnce : Obligations.ReadyDeviceIsPolledOnce := by
  intro c o s hn hdev h
  obtain ⟨t, ht⟩ := (exists_execAt_next_iff c o .waitReady s).2 h
  obtain ⟨e, he, hans, rfl⟩ := execAt_effect ht
  cases he with
  | @waitReady w hw =>
    have hready : ∀ a ∈ w, busyFlagOf a.1 = false := flags_of_device hdev hans (List.Subset.refl _)
    obtain ⟨a, rfl⟩ := List.length_eq_one_iff.1 (length_eq_one_of_all_ready hn hw hready)
    have ha : busyFlagOf a.1 = false := hready a List.mem_cons_self
    have hresult : waitResultOf [a] = .ready := by simp [waitResultOf, ha]
    exact ⟨a.1, a.2, by
      rw [ht, completed_wait h.2 c hw (List.cons_ne_nil a []), afterWait_single_ready s c ha, hresult]⟩

end Sys2Proof.Machine
end

section
/-! PROOFS about the textual form (spec/30_encoding.md R74): how the parser splits the text of a call, the operands it
reads from their texts, and the call it reads from the whole line. -/

namespace Sys2Proof.Machine.Text

/-! ## Splitting a text -/

theorem dropWhile_space_eq_self {t : List Char} (h : t.head? ≠ some ' ') : t.dropWhile (· = ' ') = t := by
  cases t with
  | nil => rfl
  | cons ch t => exact List.dropWhile_cons_of_neg (by simpa using h)

theorem trim_eq_self {t : List Char} (hfirst : t.head? ≠ some ' ') (hlast : t.getLast? ≠ some ' ') : trim t = t := by
  rw [trim, dropWhile_space_eq_self hfirst, dropWhile_space_eq_self (by rwa [List.head?_reverse]), List.reverse_reverse]

theorem trim_space_cons (t : List Char) : trim (' ' :: t) = trim t := rfl

theorem splitFirst_append {stop : Char} (after : List Char) : ∀ {before : List Char}, stop ∉ before →
    splitFirst stop (before ++ stop :: after) = some (before, after)
  | [], _ => if_pos rfl
  | ch :: before, h => by
    rw [List.mem_cons, not_or] at h
    rw [List.cons_append, splitFirst, if_neg (Ne.symm h.1), splitFirst_append after h.2, Option.map_some]

theorem splitFirst_eq_none {stop : Char} : ∀ {t : List Char}, stop ∉ t → splitFirst stop t = none
  | [], _ => rfl
  | ch :: t, h => by
    rw [List.mem_cons, not_or] at h
    rw [splitFirst, if_neg (Ne.symm h.1), splitFirst_eq_none h.2, Option.map_none]

/-! ## Names and operands as the parser finds them -/

/-- None of the characters at which the parser splits a line or reads a quoted character. -/
def isPlain (ch : Char) : Bool := ch != ' ' && ch != ',' && ch != '(' && ch != singleQuote

/-- A name or an operand's text as `text` writes it. -/
abbrev Plain (t : List Char) : Prop := t ≠ [] ∧ t.all isPlain = true

section
variable {x y : List Char} {stop : Char}

theorem Plain.append (hx : Plain x) (hy : Plain y) : Plain (x ++ y) :=
  ⟨List.append_ne_nil_of_left_ne_nil hx.1 y, by rw [List.all_append, hx.2, hy.2, Bool.and_self]⟩

theorem Plain.notMem (h : Plain x) (hstop : isPlain stop = false) : stop ∉ x := fun hm =>
  Bool.false_ne_true (hstop.symm.trans (List.all_eq_true.1 h.2 stop hm))

theorem Plain.head?_append_ne (h : Plain x) (hstop : isPlain stop = false) (t : List Char) :
    (x ++ t).head? ≠ some stop := by
  rw [List.head?_append_of_ne_nil _ h.1]
  exact fun hs => h.notMem hstop (List.mem_of_head? hs)

theorem Plain.getLast?_append_ne (h : Plain x) (hstop : isPlain stop = false) (t : List Char) :
    (t ++ x).getLast? ≠ some stop := by
  rw [List.getLast?_append_of_ne_nil _ h.1]
  exact fun hs => h.notMem hstop (List.mem_of_getLast? hs)

theorem Plain.trim_eq (h : Plain x) : trim x = x :=
  trim_eq_self (List.append_nil x ▸ h.head?_append_ne rfl []) (h.getLast?_append_ne rfl [])

/-- Operands that begin with no quote are split at the first comma. -/
theorem parseOperands_of_head (h : (trim x).head? ≠ some singleQuote) : parseOperands x =
    (splitFirst ',' (trim x)).elim (trim (trim x), none) fun r => (trim r.1, some (trim r.2)) := by
  unfold parseOperands
  dsimp only
  split
  · next p q r rest heq =>
    have hp : ¬ (p = singleQuote ∧ r = singleQuote) := fun hq => h (by rw [heq, hq.1]; rfl)
    rw [if_neg hp, ← heq]
    cases splitFirst ',' (trim x) <;> rfl
  · cases splitFirst ',' (trim x) <;> rfl

theorem parseOperands_single (h : Plain x) : parseOperands x = (x, none) := by
  have hhead : (trim x).head? ≠ some singleQuote := by
    rw [h.trim_eq, ← List.append_nil x]
    exact h.head?_append_ne rfl []
  rw [parseOperands_of_head hhead, h.trim_eq, splitFirst_eq_none (h.notMem rfl), Option.elim_none, h.trim_eq]

theorem parseOperands_pair (hx : Plain x) (hy : Plain y) : parseOperands (x ++ ([',', ' '] ++ y)) = (x, some y) := by
  have htrim : trim (x ++ ([',', ' '] ++ y)) = x ++ ([',', ' '] ++ y) := by
    refine trim_eq_self (hx.head?_append_ne rfl _) ?_
    rw [← List.append_assoc]
    exact hy.getLast?_append_ne rfl _
  have hhead : (trim (x ++ ([',', ' '] ++ y))).head? ≠ some singleQuote := by
    rw [htrim]
    exact hx.head?_append_ne rfl _
  have hsplit : splitFirst ',' (x ++ ([',', ' '] ++ y)) = some (x, ' ' :: y) :=
    splitFirst_append (' ' :: y) (hx.notMem rfl)
  rw [parseOperands_of_head hhead, htrim, hsplit, Option.elim_some, hx.trim_eq, trim_space_cons, hy.trim_eq]

end

/-! ## Operands read back -/

theorem isPlain_hexDigit : ∀ n : Nibble, isPlain (hexDigit n) = true := by decide

theorem plain_hexDigit (n : Nibble) : Plain [hexDigit n] :=
  ⟨List.cons_ne_nil _ _, by rw [List.all_cons, isPlain_hexDigit, List.all_nil, Bool.and_self]⟩

theorem plain_nibbleText (n : Nibble) : Plain (nibbleText n) :=
  Plain.append (x := ['0', 'x']) (by decide) (plain_hexDigit n)

theorem plain_byteText (b : Byte) : Plain (byteText b) := (plain_nibbleText _).append (plain_hexDigit _)

theorem plain_modeText (m : Mode) : Plain (modeText m) := by cases m <;> decide

theorem digitValue_hexDigit : ∀ n : Nibble, digitValue 16 (hexDigit n) = some n.toNat := by decide

theorem parseNumber_nibbleText (n : Nibble) : parseNumber (nibbleText n) = some n.toNat := by
  simp [nibbleText, parseNumber, digitsValue, digitValue_hexDigit]

theorem parseNumber_byteText (b : Byte) : parseNumber (byteText b) = some b.toNat := by
  have hdigits : (b.extractLsb' 4 4).toNat * 16 + (b.extractLsb' 0 4).toNat = b.toNat := by
    simp only [BitVec.extractLsb'_toNat, Nat.shiftRight_eq_div_pow]
    omega
  simpa [byteText, parseNumber, digitsValue, digitValue_hexDigit] using hdigits

/-- A text that begins with no quote is a number where a character is asked for, too. -/
theorem parseCharacter_byteText (b : Byte) : parseCharacter (byteText b) = some b.toNat := by
  have hquote : '0' ≠ singleQuote := by decide
  rw [← parseNumber_byteText]
  simp only [byteText, parseCharacter, if_neg hquote]

theorem parseMode_modeText (m : Mode) : parseMode (modeText m) = some m := by cases m <;> rfl

section
variable {x y : List Char} {n k : Nat}

theorem parse1_eq {operand : List Char → Option Nat} (hx : Plain x) (hn : operand x = some n) (mk : Nat → Call) :
    parse1 operand mk x = some (mk n) := by
  rw [parse1, parseOperands_single hx]
  simp only [hn, Option.map_some]

theorem parseM_eq (hx : Plain x) (hn : parseNumber x = some n) (m : Mode) (mk : Nat → Mode → Call) :
    parseM mk (x ++ ([',', ' '] ++ modeText m)) = some (mk n m) := by
  rw [parseM, parseOperands_pair hx (plain_modeText m)]
  simp only [hn, parseMode_modeText, Option.bind_some, Option.map_some]

theorem parse2_eq (hx : Plain x) (hn : parseNumber x = some n) (hy : Plain y) (hk : parseNumber y = some k)
    (mk : Nat → Nat → Call) : parse2 mk (x ++ ([',', ' '] ++ y)) = some (mk n k) := by
  rw [parse2, parseOperands_pair hx hy]
  simp only [hn, hk, Option.bind_some, Option.map_some]

end

/-! ## The line of an operation -/

/-- The name in an operation's text. -/
def nameOf : Instr → List Char
  | .sendNibble _ _ => nameSendNibble
  | .sendByte _ _ => nameSendByte
  | .readBusy => nameReadBusy
  | .init => nameInit
  | .waitReady => nameWaitReady
  | .writeCommand _ => nameWriteCommand
  | .writeChar _ => nameWriteChar
  | .setCursor _ _ => nameSetCursor
  | .clear => nameClear

/-- What stands between the parentheses of an operation's text. -/
def insideOf : Instr → List Char
  | .sendNibble value mode => nibbleText value ++ ([',', ' '] ++ modeText mode)
  | .sendByte value mode => byteText value ++ ([',', ' '] ++ modeText mode)
  | .writeCommand cmd => byteText cmd
  | .writeChar ch => byteText ch
  | .setCursor row col => byteText row ++ ([',', ' '] ++ byteText col)
  | .readBusy | .init | .waitReady | .clear => []

/-- The call an operation's text stands for: the operation with its operands as numbers. -/
def callOf : Instr → Call
  | .sendNibble value mode => .sendNibble value.toNat mode
  | .sendByte value mode => .sendByte value.toNat mode
  | .readBusy => .readBusy
  | .init => .init
  | .waitReady => .waitReady
  | .writeCommand cmd => .writeCommand cmd.toNat
  | .writeChar ch => .writeChar ch.toNat
  | .setCursor row col => .setCursor row.toNat col.toNat
  | .clear => .clear

/-- How the parser reads what stands between the parentheses behind an operation's name. -/
def parseInside : Instr → List Char → Option Call
  | .sendNibble _ _ => parseM .sendNibble
  | .sendByte _ _ => parseM .sendByte
  | .readBusy => parse0 .readBusy
  | .init => parse0 .init
  | .waitReady => parse0 .waitReady
  | .writeCommand _ => parse1 parseNumber .writeCommand
  | .writeChar _ => parse1 parseCharacter .writeChar
  | .setCursor _ _ => parse2 .setCursor
  | .clear => parse0 .clear

theorem text_eq (i : Instr) : text i = nameOf i ++ '(' :: (insideOf i ++ [')']) := by
  cases i <;> simp [text, callText, nameOf, insideOf]

theorem plain_nameOf (i : Instr) : Plain (nameOf i) := by
  cases i <;> rw [nameOf] <;> decide

theorem trim_line {name : List Char} (h : Plain name) (inside : List Char) :
    trim (name ++ '(' :: (inside ++ [')'])) = name ++ '(' :: (inside ++ [')']) := by
  refine trim_eq_self (h.head?_append_ne rfl _) ?_
  rw [← List.cons_append, ← List.append_assoc, List.getLast?_concat]
  decide

/-- The names differ, so each selects its own way to read the operands. -/
theorem parseCall_line (i : Instr) (inside : List Char) :
    parseCall (nameOf i ++ '(' :: (inside ++ [')'])) = parseInside i inside := by
  have hname := plain_nameOf i
  unfold parseCall
  rw [trim_line hname, splitFirst_append _ (hname.notMem rfl)]
  simp only [List.reverse_append, List.reverse_singleton, List.singleton_append, List.reverse_reverse, hname.trim_eq,
    ne_eq, not_true, if_false]
  cases i <;> rfl

theorem parseInside_insideOf (i : Instr) : parseInside i (insideOf i) = some (callOf i) := by
  cases i with
  | sendNibble v m => exact parseM_eq (plain_nibbleText v) (parseNumber_nibbleText v) m _
  | sendByte b m => exact parseM_eq (plain_byteText b) (parseNumber_byteText b) m _
  | writeCommand cmd => exact parse1_eq (plain_byteText cmd) (parseNumber_byteText cmd) _
  | writeChar ch => exact parse1_eq (plain_byteText ch) (parseCharacter_byteText ch) _
  | setCursor row col =>
    exact parse2_eq (plain_byteText row) (parseNumber_byteText row) (plain_byteText col) (parseNumber_byteText col) _
  | readBusy | init | waitReady | clear => rfl

theorem parseCall_text (i : Instr) : parseCall (text i) = some (callOf i) := by
  rw [text_eq, parseCall_line, parseInside_insideOf]

theorem isNibble_toNat (v : Nibble) : isNibble v.toNat = true := decide_eq_true v.isLt

theorem isByte_toNat (b : Byte) : isByte b.toNat = true := decide_eq_true b.isLt

/-- The operands have the widths they are checked for, and are the operands their numbers stand for (R63). -/
theorem words_callOf (i : Instr) : (callOf i).words = some [encode i] := by
  have hwf : (callOf i).wellFormed = true := by
    cases i <;> simp [callOf, Call.wellFormed, isNibble_toNat, isByte_toNat]
  have hexpand : (callOf i).expand = [i] := by
    cases i <;> simp [callOf, Call.expand]
  rw [Call.words, if_pos hwf, hexpand, List.map_singleton]

/-- Settles O6: the text is read back as the operation's call, whose one word is the operation's. -/
theorem textAssemblesToItsWord : Obligations.TextAssemblesToItsWord := fun i => by
  rw [assembleLine, parseCall_text, Option.bind_some, words_callOf]

end Sys2Proof.Machine.Text
end
